-- ==== Sys2Proof/Word.lean ====
section
/-! DEFINITION. The widths of spec/ (00_scope.md R9, R12; 20_memory.md R44): a byte, an address, a
transfer count, an operand word and a 3-bit colour index. -/

namespace Sys2Proof

/-- `u8` (R12). -/
abbrev Byte := BitVec 8

/-- An address and Unit A's cursor register: `ADDR_WIDTH = 32` bits (R9, D4). -/
abbrev Addr := BitVec 32

/-- Unit A's transfer count: `COUNT_WIDTH = 32` bits (R9, D4). -/
abbrev Count := BitVec 32

/-- One `sint32` operand word (R12, R61); its value is `toInt`. -/
abbrev Coord := BitVec 32

/-- A 3-bit colour index (R8), and a 3-bit sample clocked out (R95). -/
abbrev ColourIndex := BitVec 3

end Sys2Proof
end

