-- ==== Sys2Proof/Config.lean ====
section
/-! DEFINITION. What does not change while the block runs: the screen's size (00_scope.md R6 to R8), the
open parameters (R9, R10), the fixed fields of the two transfer units (10_state.md R24, R25), and the
free values of the model. -/

namespace Sys2Proof

/-- `WIDTH` (R6). -/
def Config.width : Nat := 640

/-- `HEIGHT` (R6). -/
def Config.height : Nat := 480

/-- `TOTAL_BYTES = WIDTH * HEIGHT / 2` (R7): the framebuffer's length in bytes, and the bytes of one pass. -/
def Config.totalBytes : Nat := Config.width * Config.height / 2

/-- `NCOLORS` (R8). -/
def Config.nColors : Nat := 8

/-- `PIN_MAP` (R9, D19): the output pins that carry the three colour lines and the two sync lines. -/
structure PinMap where
  red   : Nat
  green : Nat
  blue  : Nat
  hsync : Nat
  vsync : Nat
  deriving DecidableEq, Repr

/-- The parameters the source leaves open (R9, R10, R23). A model "takes them as an argument": here they
are a field of State that no step writes, so that every statement about a state is a statement about every
value of them. DESIGN CHOICE, log 1. -/
structure Params where
  /-- `FB_BASE` (R42, D5). -/
  fbBase         : Addr
  /-- `QUEUE_DEPTH` (R31, D7). -/
  queueDepth     : Nat
  /-- `REQ_CREDIT_MAX` (R30, D8). -/
  reqCreditMax   : Nat
  /-- `H_ACTIVE_FP_COUNT` (R23); no rule reads it. -/
  hActiveFpCount : Nat
  /-- `V_ACTIVE_LINES` (R10, R23). -/
  vActiveLines   : Nat
  /-- `H_PAIRS` (R10, R23). -/
  hPairs         : Nat
  /-- `PIN_MAP` (R9, D19). -/
  pinMap         : PinMap
  deriving DecidableEq, Repr

/-- The parameters of `State.reset` alone. The spec leaves all of them OPEN. DESIGN CHOICE, unsafe (log 1):
the base, the depth, the bound, the front-porch count and the pins are the model's; DEDUCED: 320 pairs and
480 lines are R10's `WIDTH / 2` and `HEIGHT`. The depth and the bound are those of the spec's own programs
(95_test_vectors.md Part 3). -/
def Config.params : Params where
  fbBase := 0
  queueDepth := 2
  reqCreditMax := 2
  hActiveFpCount := 0
  vActiveLines := 480
  hPairs := 320
  pinMap := ⟨0, 1, 2, 3, 4⟩

/-- Where Unit A puts a byte (R24 `A.DEST`, D6): a port, not an address. -/
inductive Port where
  | colourQueue
  deriving DecidableEq, Repr

/-- The registers of Unit A that a select can name (R25 `B.TARGET`). -/
inductive CursorRegister where
  | readAddress
  | remaining
  deriving DecidableEq, Repr

/-- Unit A's fixed, read-only fields (R24). -/
structure UnitAConfig where
  /-- `A.SIZE`: `0b00` is one byte per transfer. -/
  size      : BitVec 2
  /-- `A.READ_INCR`. -/
  readIncr  : BitVec 1
  /-- `A.WRITE_INCR`. -/
  writeIncr : BitVec 1
  /-- `A.DEST`. -/
  dest      : Port
  /-- `A.COUNT`. -/
  count     : Count
  /-- `A.PACE`. -/
  pace      : BitVec 1
  /-- `A.CHAIN`. -/
  chain     : BitVec 1
  deriving DecidableEq, Repr

/-- Unit B's fixed, read-only fields (R25). -/
structure UnitBConfig where
  /-- `B.VALUE`. -/
  value    : Addr
  /-- `B.TARGET`. -/
  target   : CursorRegister
  /-- `B.COUNT`. -/
  count    : BitVec 1
  /-- `B.REENABLE`. -/
  reenable : BitVec 1
  /-- `B.TRIGGER`. -/
  trigger  : BitVec 1
  deriving DecidableEq, Repr

/-- The values R24's table fixes. -/
def Config.unitA : UnitAConfig where
  size := 0b00
  readIncr := 1
  writeIncr := 0
  dest := .colourQueue
  count := BitVec.ofNat 32 Config.totalBytes
  pace := 1
  chain := 1

/-- The values R25's table fixes; `B.VALUE = FB_BASE`. -/
def Config.unitB (fbBase : Addr) : UnitBConfig where
  value := fbBase
  target := .readAddress
  count := 1
  reenable := 1
  trigger := 1

/-- Who takes a step: R115's five agents, the CPU port's clear sequencer under a name of its own as in
spec/opcode_table.json (log 6). -/
inductive Agent where
  | cpuPort
  | clearSequencer
  | unitA
  | unitB
  | pacer
  | consumer
  deriving DecidableEq, Repr, Inhabited

/-- FREE VALUE (log 2): the byte framebuffer index `i` holds after reset; "each byte is an arbitrary value
(a draw)" (R32, D10). -/
opaque Config.resetByte : Nat → Byte

/-- FREE VALUE (log 6): which agent the `n`-th unfixed turn goes to; "any enabled agent may be scheduled
next" (R15, D32). -/
opaque Config.freeAgent : Nat → Agent

end Sys2Proof
end

