-- ==== Sys2Proof/Syntax.lean ====
section
/-! DEFINITION. The operations of the block's agents (30_encoding.md R62), the palette (00_scope.md R17, R18)
and the lines of a CPU program before they are encoded (R68). -/

namespace Sys2Proof

/-- One constructor per row of spec/opcode_table.json. Every value of the operand types is legal (R61), so
every term is well formed; what can be ill formed is a source `Line` (R68). -/
inductive Instr where
  | setPixel (x y : Coord) (c : ColourIndex)
  | clear
  | getPixel (x y : Coord)
  | start
  | clearStep
  | pacerReq
  | stream
  | reload
  | pop
  deriving DecidableEq, Repr

/-- The agent whose step it is (R62, R115). -/
def Instr.agent : Instr → Agent
  | .setPixel _ _ _ => .cpuPort
  | .clear => .cpuPort
  | .getPixel _ _ => .cpuPort
  | .start => .cpuPort
  | .clearStep => .clearSequencer
  | .pacerReq => .pacer
  | .stream => .unitA
  | .reload => .unitB
  | .pop => .consumer

/-- Commands are what a program may issue; every other operation is an event (R59, R62). -/
def Instr.isCommand (i : Instr) : Bool := i.agent == .cpuPort

/-- The colours of the palette, in index order (R17, R18). -/
inductive Colour where
  | black | red | green | yellow | blue | magenta | cyan | white
  deriving DecidableEq, Repr

/-- The index a colour name stands for (R18). -/
def Colour.index : Colour → ColourIndex
  | .black => 0
  | .red => 1
  | .green => 2
  | .yellow => 3
  | .blue => 4
  | .magenta => 5
  | .cyan => 6
  | .white => 7

/-- One command of a CPU program as R68 writes it, its literals not yet checked. -/
inductive Line where
  | setPixel (x y color : Int)
  | clear
  | getPixel (x y : Int)
  | start
  deriving DecidableEq, Repr

end Sys2Proof
end

