-- ==== Sys2Proof/Machine/State.lean ====
section
/-! DEFINITION. The state of the block (10_state.md R20 to R39) as plain data, the reasons a step can stop,
and the state after reset (70_reset_and_hazards.md R119). -/

namespace Sys2Proof.Machine

/-- Why the machine stops. The spec's own fault kinds are `FaultKind`: they stop nothing. -/
inductive Fault where
  /-- Raised by `memRead` and `memWrite`: an address outside the framebuffer, where R13 leaves `MemRead` and
  `MemWrite` undefined. No step from a state that meets R29 and R33 raises it. Safe (log 9). -/
  | outsideFramebuffer
  deriving DecidableEq, Repr

/-- Why a step has no meaning. The spec's own refusals set the mark `refused` and stop nothing (R106). -/
inductive Refusal where
  /-- An instruction with no meaning yet, by its mnemonic; no arm of `exec` answers it. Safe. -/
  | notModelled (mnemonic : String)
  /-- Raised by `step`: the parameters or the fixed fields are no configuration of this hardware, and "a
  model refuses it before any step" (R123, log 10). Safe. -/
  | invalidConfiguration
  deriving DecidableEq, Repr

/-- The spec's fault kinds (R34, R101). -/
inductive FaultKind where
  | starvation
  | reqOverrun
  | frameMisalign
  deriving DecidableEq, Repr

/-- A set of fault kinds: the field says whether the kind is in it (R34, R101). -/
structure FaultSet where
  starvation    : Bool
  reqOverrun    : Bool
  frameMisalign : Bool
  deriving DecidableEq, Repr

/-- The set with no kind in it. -/
def FaultSet.empty : FaultSet := ⟨false, false, false⟩

/-- Why a command is refused (R106). The mark does not say which. -/
inductive RefuseReason where
  | reservedEncoding
  | eventAsCommand
  | startNotIdle
  deriving DecidableEq, Repr

/-- The pipeline's states (R26, R85); `0b11` is never held. -/
inductive PState where
  | armedIdle
  | streaming
  | requestReset
  deriving DecidableEq, Repr

/-- The encoding of `pstate` (R26). -/
def PState.code : PState → BitVec 2
  | .armedIdle => 0b00
  | .streaming => 0b01
  | .requestReset => 0b10

/-- The bytes written since reset, by address. An address not listed has not been written and holds its
reset draw (log 2). -/
abbrev Memory := List Host.Cell

/-- Canonical: the addresses strictly rise. -/
abbrev Memory.wf (m : Memory) : Prop := m.Pairwise fun c d => c.1 < d.1

/-- Everything the spec gives the machine (R20), and the model's own fields. -/
structure State where
  /-- The open parameters, never written (R9, log 1). -/
  params      : Params
  /-- Unit A's fixed fields, never written (R24). -/
  unitA       : UnitAConfig
  /-- Unit B's fixed fields, never written (R25). -/
  unitB       : UnitBConfig
  /-- The framebuffer `FB` (R32, R42). -/
  mem         : Memory
  /-- The pipeline state (R26). -/
  pstate      : PState
  /-- Unit A's read cursor (R27). -/
  readAddress : Addr
  /-- Unit A's transfer count (R28). -/
  remaining   : Count
  /-- Pending pacer requests (R30). -/
  req         : Nat
  /-- The colour-output queue `Q`, oldest first (R31). -/
  q           : List Byte
  /-- The clear's progress: the next byte it zeroes (R33). -/
  clr         : Option Nat
  /-- The sticky fault set (R34, R101). -/
  faults      : FaultSet
  /-- The sticky refusal mark (R34, R106). -/
  refused     : Bool
  /-- `RELOAD` steps taken (R35). -/
  passes      : Nat
  /-- `STREAM` steps taken (R35). -/
  streamed    : Nat
  /-- The samples the consumer has emitted, oldest first (R35). -/
  out         : List ColourIndex
  /-- The MODEL's field (log 4): what `GETPIXEL` put on the port's result output (R61, R81), oldest first. -/
  results     : List ColourIndex
  /-- The MODEL's field (log 5): the CPU program's remaining commands (R70), encoded. -/
  program     : List Byte
  /-- The MODEL's field (log 6): the agents whose turns are already fixed, oldest first (R15). -/
  schedule    : List Agent
  /-- The MODEL's field (log 6): how many turns the free value `Config.freeAgent` has given. -/
  draws       : Nat
  deriving DecidableEq, Repr

/-- Reset (R119) of a block with the parameters `p`. Nothing is listed in memory: every framebuffer byte
holds its draw (R32, log 2). -/
def State.resetWith (p : Params) : State where
  params := p
  unitA := Config.unitA
  unitB := Config.unitB p.fbBase
  mem := []
  pstate := .armedIdle
  readAddress := p.fbBase
  remaining := BitVec.ofNat 32 Config.totalBytes
  req := 0
  q := []
  clr := none
  faults := FaultSet.empty
  refused := false
  passes := 0
  streamed := 0
  out := []
  results := []
  program := []
  schedule := []
  draws := 0

/-- The machine right after reset, with the parameters log 1 names. -/
def State.reset : State := State.resetWith Config.params

end Sys2Proof.Machine
end

