-- ==== Sys2Proof/WellFormed.lean ====
section
/-! DEFINITION. What a source line must satisfy to be assembled (30_encoding.md R68), and what the
parameters and fixed fields must satisfy to be a configuration of this hardware (00_scope.md R9, R10;
70_reset_and_hazards.md R123). Each check has a refused term in Sys2Proof/Tests/Slice0.lean. -/

namespace Sys2Proof

/-- A literal is a `sint32` (R12, R68). -/
def isSint32 (v : Int) : Bool := decide (-2147483648 ≤ v ∧ v ≤ 2147483647)

/-- A colour literal is an index `0..7` (R68). -/
def isColour (v : Int) : Bool := decide (0 ≤ v ∧ v ≤ 7)

/-- "A literal outside `sint32` or a colour outside `0..7` is a syntax error" (R68). -/
def Line.wf : Line → Bool
  | .setPixel x y c => isSint32 x && isSint32 y && isColour c
  | .clear => true
  | .getPixel x y => isSint32 x && isSint32 y
  | .start => true

/-- `FB_BASE + TOTAL_BYTES <= 2^ADDR_WIDTH`: the framebuffer does not wrap at the top of the address space
(R22, R42, D5). The sum stands on the other side, so that no proof unfolds it on an open base. -/
def Params.baseOk (p : Params) : Bool := decide (p.fbBase.toNat ≤ 2 ^ 32 - Config.totalBytes)

/-- `QUEUE_DEPTH` and `REQ_CREDIT_MAX` are at least 1 (R9). -/
def Params.boundsOk (p : Params) : Bool := decide (1 ≤ p.queueDepth ∧ 1 ≤ p.reqCreditMax)

/-- `H_PAIRS * V_ACTIVE_LINES = TOTAL_BYTES` (R10, R123). -/
def Params.countsOk (p : Params) : Bool := decide (p.hPairs * p.vActiveLines = Config.totalBytes)

/-- The open parameters are within what R9, R10, R42 allow. -/
def Params.wf (p : Params) : Bool := p.baseOk && p.boundsOk && p.countsOk

/-- An even `WIDTH` (R6, R123). -/
def Config.widthOk : Bool := decide (Config.width % 2 = 0)

end Sys2Proof
end

