-- ==== Sys2Proof/Machine/Ops.lean ====
section
/-! DEFINITION. The named operations over memory and state: reading and writing a framebuffer byte
(00_scope.md R13; 20_memory.md R42, R53), `raise` and `refuse` (60_exceptions.md R101, R106, R110: this
block's whole of "taking an exception"; it has no trap and no return, R110, R111), holding, whose turn it is
(00_scope.md R15), and the configuration check (70_reset_and_hazards.md R123). -/

namespace Sys2Proof.Machine

/-- How an operation over the state ends. -/
abbrev Result (α : Type) := Host.Outcome α Fault Refusal

/-- Go on with what the first operation answers, or stop as it stops. -/
def andThen {α β : Type} (r : Result α) (k : α → Result β) : Result β :=
  match r with
  | .next a => k a
  | .fault f => .fault f
  | .refused e => .refused e

/-- The byte listed for an address, if it has been written. -/
def Memory.lookup (m : Memory) (a : Nat) : Option Byte :=
  match m with
  | [] => none
  | (b, v) :: rest => if a = b then some v else Memory.lookup rest a

/-- The memory with this byte at this address, its addresses still rising. -/
def Memory.write (m : Memory) (a : Nat) (v : Byte) : Memory :=
  match m with
  | [] => [(a, v)]
  | (b, w) :: rest =>
    if a < b then (a, v) :: (b, w) :: rest
    else if a = b then (a, v) :: rest
    else (b, w) :: Memory.write rest a v

/-- The address of framebuffer byte `i`: `FB_BASE + i` (R42). -/
def State.fbAddr (s : State) (i : Nat) : Nat := s.params.fbBase.toNat + i

/-- `FB_BASE <= a < FB_BASE + TOTAL_BYTES` (R13, R42). -/
def State.inFramebuffer (s : State) (a : Nat) : Bool :=
  decide (s.params.fbBase.toNat ≤ a ∧ a < s.params.fbBase.toNat + Config.totalBytes)

/-- The byte at an address of the framebuffer: the last one written, or the reset draw of that byte where
none was (R53, R32, log 2). -/
def State.byteAt (s : State) (a : Nat) : Byte :=
  (Memory.lookup s.mem a).getD (Config.resetByte (a - s.params.fbBase.toNat))

/-- `FB[i]` (R13, R32). -/
def State.fb (s : State) (i : Nat) : Byte := s.byteAt (s.fbAddr i)

/-- The state with one byte stored; a framebuffer write has no other effect (R51). -/
def State.putByte (s : State) (a : Nat) (v : Byte) : State :=
  { s with mem := Memory.write s.mem a v }

/-- `MemRead(a, 1)` (R13): undefined outside the framebuffer, so a fault there (log 9). -/
def memRead (s : State) (a : Nat) : Result Byte :=
  if s.inFramebuffer a then .next (s.byteAt a) else .fault .outsideFramebuffer

/-- `MemWrite(a, 1, v)` (R13), under the same condition. -/
def memWrite (s : State) (a : Nat) (v : Byte) : Result State :=
  if s.inFramebuffer a then .next (s.putByte a v) else .fault .outsideFramebuffer

/-- The agent holds: its step does not exist, and the state is as it was (R13, R86; log 7). -/
def hold (s : State) : Result State := .next s

/-- The sets `faults` can become: the kind added, none removed (R101). -/
def FaultSet.add (f : FaultSet) (k : FaultKind) : FaultSet :=
  match k with
  | .starvation => { f with starvation := true }
  | .reqOverrun => { f with reqOverrun := true }
  | .frameMisalign => { f with frameMisalign := true }

/-- Whether a kind is in the set. -/
def FaultSet.has (f : FaultSet) (k : FaultKind) : Bool :=
  match k with
  | .starvation => f.starvation
  | .reqOverrun => f.reqOverrun
  | .frameMisalign => f.frameMisalign

/-- The code of a kind in a trace (R101). -/
def FaultKind.code : FaultKind → Nat
  | .starvation => 1
  | .reqOverrun => 2
  | .frameMisalign => 3

/-- `raise F` as a state: the kind is recorded, with no other effect (R13, R101, R110). -/
def State.raise (s : State) (k : FaultKind) : State := { s with faults := s.faults.add k }

/-- `refuse(reason)` as a state: the mark is set, with no other effect; the mark is a Boolean and keeps no
reason (R13, R34, R106). -/
def State.refuse (s : State) (_reason : RefuseReason) : State := { s with refused := true }

/-- The agent whose turn it is: the schedule's next, or a free one where the schedule says nothing (R15,
log 6). -/
def State.nextAgent (s : State) : Agent :=
  match s.schedule with
  | a :: _ => a
  | [] => Config.freeAgent s.draws

/-- The state once that turn is given out (log 6). -/
def State.turnTaken (s : State) : State :=
  match s.schedule with
  | _ :: rest => { s with schedule := rest }
  | [] => { s with draws := s.draws + 1 }

/-- The parameters and the fixed fields are a configuration of this hardware (R123, R24, R25, R9, log 10). -/
def State.configOk (s : State) : Bool :=
  Config.widthOk && s.params.wf && decide (s.unitA = Config.unitA)
    && decide (s.unitB = Config.unitB s.params.fbBase)

end Sys2Proof.Machine
end

