-- ==== Sys2Proof/Machine/Flags.lean ====
section
/-! DEFINITION. The block has no flags, condition codes or predicates (10_state.md R36): no operation
computes one. What stands here are the conditions under which an agent's step exists (41_transfer.md R89, R92,
R100; 40_codec.md R78, R80) and the tests the pacer and the consumer make (R88, R94), each computed once. -/

namespace Sys2Proof.Machine

/-- The CPU port takes a command (R80). -/
def State.portFree (s : State) : Bool := s.clr.isNone

/-- Unit A's step exists: `pstate = STREAMING` and `req > 0` and `|Q| < QUEUE_DEPTH` (R89, R100). -/
def State.streamEnabled (s : State) : Bool :=
  decide (s.pstate = .streaming ∧ 0 < s.req ∧ s.q.length < s.params.queueDepth)

/-- Unit B's step exists: `pstate = REQUEST_RESET` (R92). -/
def State.reloadEnabled (s : State) : Bool := decide (s.pstate = .requestReset)

/-- What a request pulse raises, checked in this order (R88, R109). -/
def State.pacerFault (s : State) : Option FaultKind :=
  if s.pstate = .armedIdle then some .frameMisalign
  else if s.req = s.params.reqCreditMax then some .reqOverrun
  else none

/-- The step's condition as the spec gives it for each operation; a step whose condition is false does not
exist (R13). -/
def State.enabled (s : State) (i : Instr) : Bool :=
  match i with
  | .setPixel _ _ _ => s.portFree
  | .clear => s.portFree
  | .getPixel _ _ => s.portFree
  | .start => s.portFree
  | .clearStep => s.clr.isSome
  | .pacerReq => true
  | .stream => s.streamEnabled
  | .reload => s.reloadEnabled
  | .pop => true

end Sys2Proof.Machine
end

