-- ==== Sys2Proof/Machine/Operands.lean ====
section
/-! DEFINITION. The operand forms: the pixel codec (40_codec.md R71 to R73), the fields of a framebuffer byte
(20_memory.md R44), and the samples and colour lines of a byte (41_transfer.md R95). -/

namespace Sys2Proof.Machine

/-- `clamp(v, lo, hi)` (R12). -/
def clamp (v lo hi : Int) : Int := if v < lo then lo else if hi < v then hi else v

/-- Where a pixel lies: `byteIndex`, and `nibble` 0 for the low field, 1 for the high one (R43, R44). -/
structure PixelField where
  byteIndex : Nat
  nibble    : Nat
  deriving DecidableEq, Repr

/-- `linear = y*WIDTH + x` of the clamped coordinates (R71). -/
def linearOf (x y : Coord) : Nat :=
  let xc := (clamp x.toInt 0 (Config.width - 1)).toNat
  let yc := (clamp y.toInt 0 (Config.height - 1)).toNat
  yc * Config.width + xc

/-- `codec(X, Y)` (R71). -/
def codec (x y : Coord) : PixelField where
  byteIndex := linearOf x y / 2
  nibble := linearOf x y % 2

/-- `zext_8(c) << (3 * n)` (R74, R84). -/
def fieldMask (c : ColourIndex) (n : Nat) : Byte := c.setWidth 8 <<< (3 * n)

/-- `(b >> (3 * n)) & 0b111` (R81). -/
def fieldOf (b : Byte) (n : Nat) : ColourIndex := (b >>> (3 * n)).setWidth 3

/-- A `GETPIXEL` result zero-extended to a byte, "where a byte is needed" (R61). -/
def resultByte (r : ColourIndex) : Byte := r.setWidth 8

/-- The two samples of a byte, in the order they are clocked out: `b[2:0]`, then `b[5:3]` (R94, R95). -/
def samplesOf (b : Byte) : List ColourIndex := [b.extractLsb' 0 3, b.extractLsb' 3 3]

/-- The red line of a sample is `s[0]` (R95). -/
def redLine (c : ColourIndex) : Bool := c.getLsbD 0

/-- The green line of a sample is `s[1]` (R95). -/
def greenLine (c : ColourIndex) : Bool := c.getLsbD 1

/-- The blue line of a sample is `s[2]` (R95). -/
def blueLine (c : ColourIndex) : Bool := c.getLsbD 2

/-- The levels a sample puts on the pins that carry the colour lines (R95, `PIN_MAP` of R9). -/
def pinLevels (m : PinMap) (c : ColourIndex) : List (Nat × Bool) :=
  [(m.red, redLine c), (m.green, greenLine c), (m.blue, blueLine c)]

end Sys2Proof.Machine
end

