-- ==== Sys2Proof/Machine/Codec.lean ====
section
/-! DEFINITION. The CPU port's operations on the framebuffer (40_codec.md R74 to R84). -/

namespace Sys2Proof.Machine

/-- `SETPIXEL X, Y, c` (R74, R76): OR the colour into one field of one byte, in one step. -/
def execSetPixel (x y : Coord) (c : ColourIndex) (s : State) : Result State :=
  if s.portFree then
    let p := codec x y
    andThen (memRead s (s.fbAddr p.byteIndex)) fun b =>
      memWrite s (s.fbAddr p.byteIndex) (b ||| fieldMask c p.nibble)
  else hold s

/-- `CLEAR` (R77): start a clear; `CLEAR_STEP` zeroes the bytes. -/
def execClear (s : State) : Result State :=
  if s.portFree then .next { s with clr := some 0 } else hold s

/-- `GETPIXEL X, Y` (R81): the field goes to the port's result output (log 4). -/
def execGetPixel (x y : Coord) (s : State) : Result State :=
  if s.portFree then
    let p := codec x y
    andThen (memRead s (s.fbAddr p.byteIndex)) fun b =>
      .next { s with results := s.results ++ [fieldOf b p.nibble] }
  else hold s

/-- `CLEAR_STEP` (R78): zero one whole byte, and end the clear after the last. -/
def execClearStep (s : State) : Result State :=
  match s.clr with
  | none => hold s
  | some k =>
    andThen (memWrite s (s.fbAddr k) 0x00) fun t =>
      .next { t with clr := if k + 1 = Config.totalBytes then none else some (k + 1) }

end Sys2Proof.Machine
end

