-- ==== Sys2Proof/Machine/Transfer.lean ====
section
/-! DEFINITION. The transfer pipeline (41_transfer.md R85 to R100): the enable, the pacer's request, Unit A,
Unit B and the consumer. -/

namespace Sys2Proof.Machine

/-- `START` (R87): enable the streaming unit, or refuse outside `ARMED_IDLE`. -/
def execStart (s : State) : Result State :=
  if s.portFree then
    if s.pstate = .armedIdle then .next { s with pstate := .streaming }
    else .next (s.refuse .startNotIdle)
  else hold s

/-- `PACER_REQ` (R88): count one request, or raise what R88 says, in its order. -/
def execPacerReq (s : State) : Result State :=
  match s.pacerFault with
  | some k => .next (s.raise k)
  | none => .next { s with req := s.req + 1 }

/-- `STREAM` (R89): one byte from the cursor to the queue; the last byte of the pass triggers Unit B (R91). -/
def execStream (s : State) : Result State :=
  if s.streamEnabled then
    andThen (memRead s s.readAddress.toNat) fun b =>
      .next { s with
        q := s.q ++ [b]
        req := s.req - 1
        readAddress := s.readAddress + 1
        remaining := s.remaining - 1
        streamed := s.streamed + 1
        pstate := if s.remaining - 1 = 0 then .requestReset else s.pstate }
  else hold s

/-- `RELOAD` (R92): rewind and re-arm Unit A. -/
def execReload (s : State) : Result State :=
  if s.reloadEnabled then
    .next { s with
      readAddress := s.unitB.value
      remaining := s.unitA.count
      pstate := .streaming
      passes := s.passes + 1 }
  else hold s

/-- `POP` (R94): take a byte and clock out its two samples, or record the underflow. -/
def execPop (s : State) : Result State :=
  match s.q with
  | [] => .next (s.raise .starvation)
  | b :: rest => .next { s with q := rest, out := s.out ++ samplesOf b }

end Sys2Proof.Machine
end

