-- ==== Sys2Proof/Machine/Dispatch.lean ====
section
/-! DEFINITION. The one dispatch over Instr: an arm per row of spec/opcode_table.json. -/

namespace Sys2Proof.Machine

def exec (i : Instr) (s : State) : Host.Outcome State Fault Refusal :=
  match i with
  | .setPixel x y c => Sys2Proof.Machine.execSetPixel x y c s
  | .clear => Sys2Proof.Machine.execClear s
  | .getPixel x y => Sys2Proof.Machine.execGetPixel x y s
  | .start => Sys2Proof.Machine.execStart s
  | .clearStep => Sys2Proof.Machine.execClearStep s
  | .pacerReq => Sys2Proof.Machine.execPacerReq s
  | .stream => Sys2Proof.Machine.execStream s
  | .reload => Sys2Proof.Machine.execReload s
  | .pop => Sys2Proof.Machine.execPop s

end Sys2Proof.Machine
end

