-- ==== Sys2Proof/Decode.lean ====
section
/-! DEFINITION. Decoding and encoding of 30_encoding.md R59 to R67: a code word and, for `SETPIXEL` and
`GETPIXEL`, two operand words. A command stream is a list of bytes, each operand word's bytes most
significant first, as R68 writes its hex digits (DESIGN CHOICE, log 5). -/

namespace Sys2Proof

/-- Why a stream gives no operation. -/
inductive DecodeError where
  /-- The code word is one of R64's 240 reserved words. -/
  | reservedEncoding
  /-- The stream ends before the code word or before its operand words. -/
  | incomplete
  deriving DecidableEq, Repr

/-- The field `op = w[7:4]` (R60). -/
def opField (w : Byte) : BitVec 4 := w.extractLsb' 4 4

/-- The reserved bit `w[3]` (R60). -/
def reservedBit (w : Byte) : BitVec 1 := w.extractLsb' 3 1

/-- The field `c = w[2:0]` (R60). -/
def colourField (w : Byte) : ColourIndex := w.extractLsb' 0 3

/-- How an operation's code word reads, before its operand words are taken (R62). -/
inductive CodeWord where
  | setPixel (c : ColourIndex)
  | getPixel
  | plain (i : Instr)
  deriving DecidableEq, Repr

/-- The row of R62 with this `op`, for a word whose bits 3 to 0 are zero. -/
def plainRow (op : BitVec 4) : Option CodeWord :=
  if op = 0x2 then some (.plain .clear)
  else if op = 0x3 then some .getPixel
  else if op = 0x4 then some (.plain .start)
  else if op = 0x5 then some (.plain .clearStep)
  else if op = 0x8 then some (.plain .pacerReq)
  else if op = 0x9 then some (.plain .stream)
  else if op = 0xA then some (.plain .reload)
  else if op = 0xB then some (.plain .pop)
  else none

/-- R63: the word names the row with its `op` if and only if `w[3] = 0` and, for every `op` but `0x1`,
`w[2:0] = 000`; every other word is reserved. -/
def readCodeWord (w : Byte) : Option CodeWord :=
  if reservedBit w ≠ 0 then none
  else if opField w = 0x1 then some (.setPixel (colourField w))
  else if colourField w ≠ 0 then none
  else plainRow (opField w)

/-- The word whose bytes are these, the first the most significant (log 5). -/
def wordOfBytes (b3 b2 b1 b0 : Byte) : Coord := b3 ++ b2 ++ b1 ++ b0

/-- The bytes of an operand word, the most significant first (log 5). -/
def bytesOfWord (v : Coord) : List Byte :=
  [v.extractLsb' 24 8, v.extractLsb' 16 8, v.extractLsb' 8 8, v.extractLsb' 0 8]

/-- Two operand words, `X` first (R61), and what follows them. -/
def takeOperands : List Byte → Option (Coord × Coord × List Byte)
  | x3 :: x2 :: x1 :: x0 :: y3 :: y2 :: y1 :: y0 :: rest =>
    some (wordOfBytes x3 x2 x1 x0, wordOfBytes y3 y2 y1 y0, rest)
  | _ => none

/-- The first operation of a stream and what follows it (R63). -/
def decode : List Byte → Except DecodeError (Instr × List Byte)
  | [] => .error .incomplete
  | w :: rest =>
    match readCodeWord w with
    | none => .error .reservedEncoding
    | some (.plain i) => .ok (i, rest)
    | some (.setPixel c) =>
      match takeOperands rest with
      | some (x, y, rest') => .ok (.setPixel x y c, rest')
      | none => .error .incomplete
    | some .getPixel =>
      match takeOperands rest with
      | some (x, y, rest') => .ok (.getPixel x y, rest')
      | none => .error .incomplete

/-- The code word of an operation (R62). -/
def codeWord : Instr → Byte
  | .setPixel _ _ c => 0b00010#5 ++ c
  | .clear => 0b00100000
  | .getPixel _ _ => 0b00110000
  | .start => 0b01000000
  | .clearStep => 0b01010000
  | .pacerReq => 0b10000000
  | .stream => 0b10010000
  | .reload => 0b10100000
  | .pop => 0b10110000

/-- The operand words of an operation, in order (R61). -/
def operandWords : Instr → List Coord
  | .setPixel x y _ => [x, y]
  | .getPixel x y => [x, y]
  | .clear => []
  | .start => []
  | .clearStep => []
  | .pacerReq => []
  | .stream => []
  | .reload => []
  | .pop => []

/-- The bytes of an operation: its code word and its operand words (R59, R61). -/
def encode (i : Instr) : List Byte := codeWord i :: (operandWords i).flatMap bytesOfWord

/-- How many bytes a code word's operation has: two operand words follow for `SETPIXEL` and `GETPIXEL`,
none otherwise (R63). -/
def lengthOfCode (w : Byte) : Nat :=
  match readCodeWord w with
  | some (.setPixel _) => 9
  | some .getPixel => 9
  | some (.plain _) => 1
  | none => 1

/-- The bytes of the instruction whose bits are `w`, numbered as spec/opcode_table.json numbers them: the
code word is bits 7..0, `X` bits 39..8, `Y` bits 71..40, and every bit from `nbits` up is 0. -/
def tableBytes (nbits w : Nat) : List Byte :=
  let v := w % 2 ^ nbits
  let code := BitVec.ofNat 8 v
  (code :: (bytesOfWord (BitVec.ofNat 32 (v / 2 ^ 8)) ++ bytesOfWord (BitVec.ofNat 32 (v / 2 ^ 40)))).take
    (lengthOfCode code)

/-- What `decode` reads from the instruction whose bits are `w`. -/
def decodeTableWord (nbits w : Nat) : Option Instr :=
  match decode (tableBytes nbits w) with
  | .ok (i, _) => some i
  | .error _ => none

/-- A checked source line as a command; `none` is R68's syntax error. -/
def Line.assemble (l : Line) : Option Instr :=
  if l.wf then
    match l with
    | .setPixel x y c => some (.setPixel (BitVec.ofInt 32 x) (BitVec.ofInt 32 y) (BitVec.ofInt 3 c))
    | .clear => some .clear
    | .getPixel x y => some (.getPixel (BitVec.ofInt 32 x) (BitVec.ofInt 32 y))
    | .start => some .start
  else none

end Sys2Proof
end

