-- ==== Sys2Proof/Machine/Port.lean ====
section
/-! DEFINITION. What the agent whose turn it is does with it: the CPU port takes its program's next command
(30_encoding.md R64, R65, R70; 40_codec.md R80; 60_exceptions.md R109), every other agent takes its one step
(60_exceptions.md R115). -/

namespace Sys2Proof.Machine

/-- What a turn comes to. -/
inductive Fetched where
  /-- Take this step in this state. -/
  | run (i : Instr) (s : State)
  /-- The agent holds. -/
  | hold (s : State)
  /-- The word at the CPU port is refused. -/
  | refuse (r : RefuseReason) (s : State)
  deriving DecidableEq, Repr

/-- The CPU port's turn. It takes no word while a clear is in progress (R80) nor before a command's words
are all there (log 5). A refused word is taken off the program: one code word, whose length R63 gives. -/
def fetchCommand (s : State) : Fetched :=
  if s.portFree then
    match decode s.program with
    | .error .incomplete => .hold s
    | .error .reservedEncoding => .refuse .reservedEncoding { s with program := s.program.tail }
    | .ok (i, rest) =>
      if i.isCommand then .run i { s with program := rest }
      else .refuse .eventAsCommand { s with program := rest }
  else .hold s

/-- The turn of the agent that the schedule names (R15, R115). -/
def fetch (s : State) : Fetched :=
  match s.nextAgent with
  | .cpuPort => fetchCommand s.turnTaken
  | .clearSequencer => .run .clearStep s.turnTaken
  | .unitA => .run .stream s.turnTaken
  | .unitB => .run .reload s.turnTaken
  | .pacer => .run .pacerReq s.turnTaken
  | .consumer => .run .pop s.turnTaken

/-- The state in which the next turn takes the operation with these bytes: a command is put before the CPU
program and the port's turn before the schedule; an event is its agent's turn, since no program can issue it
(R65). Bytes that decode to nothing go to the port. -/
def State.place (s : State) (bytes : List Byte) : State :=
  let toPort : State := { s with program := bytes ++ s.program, schedule := .cpuPort :: s.schedule }
  match decode bytes with
  | .ok (i, _) => if i.isCommand then toPort else { s with schedule := i.agent :: s.schedule }
  | .error _ => toPort

end Sys2Proof.Machine
end

