-- ==== Sys2Proof/Machine/Step.lean ====
section
/-! DEFINITION. One step: one agent's turn (00_scope.md R15), refused where the configuration is none of this
hardware (70_reset_and_hazards.md R123). -/

namespace Sys2Proof.Machine

/-- One turn of one agent. -/
def step (s : State) : Host.Outcome State Fault Refusal :=
  if s.configOk then
    match fetch s with
    | .run i t => exec i t
    | .hold t => hold t
    | .refuse r t => .next (t.refuse r)
  else .refused .invalidConfiguration

/-- `s` with the operation whose bits are `w` as what the next step takes (log 5). -/
def State.withFetchWord (s : State) (nbits w : Nat) : State := s.place (tableBytes nbits w)

end Sys2Proof.Machine
end

