-- ==== Sys2Proof/Machine/Assembler.lean ====
section
/-! DEFINITION. The text of a CPU program (30_encoding.md R68, R69): one command per line,
comments, case-insensitive mnemonics and colour names, integer literals, and the written form `w [X Y]`. What
R68 leaves open of the text is in log 11. -/

namespace Sys2Proof.Machine

/-- Why a line is not assembled (R68). -/
inductive LineError where
  /-- The line is none of R68's four command forms. -/
  | malformed
  /-- A literal outside `sint32`, or a colour outside `0..7`. -/
  | literalOutOfRange
  deriving DecidableEq, Repr

/-- White space within a line. -/
def isBlank (c : Char) : Bool := c == ' ' || c == '\t' || c == '\r'

/-- A text without white space around it. -/
def trimBlanks (cs : List Char) : List Char :=
  ((cs.dropWhile isBlank).reverse.dropWhile isBlank).reverse

/-- The pieces of a text between commas. -/
def splitCommas (cs : List Char) : List (List Char) :=
  cs.foldr (fun c acc => if c == ',' then [] :: acc else
    match acc with
    | [] => [[c]]
    | p :: ps => (c :: p) :: ps) [[]]

/-- The value of a digit, decimal or hexadecimal, in upper case. -/
def digitValue (c : Char) : Option Nat :=
  if '0' ≤ c ∧ c ≤ '9' then some (c.toNat - '0'.toNat)
  else if 'A' ≤ c ∧ c ≤ 'F' then some (c.toNat - 'A'.toNat + 10)
  else none

/-- One more digit of a literal in this base. -/
def addDigit (base : Nat) (acc : Option Nat) (c : Char) : Option Nat :=
  match acc, digitValue c with
  | some n, some d => if d < base then some (n * base + d) else none
  | _, _ => none

/-- An unsigned literal: at least one digit of the base. -/
def readDigits (base : Nat) (cs : List Char) : Option Nat :=
  if cs.isEmpty then none else cs.foldl (addDigit base) (some 0)

/-- Decimal, or `0x` and hexadecimal digits (R68). -/
def readNatLit (cs : List Char) : Option Nat :=
  match cs with
  | '0' :: 'X' :: rest => readDigits 16 rest
  | _ => readDigits 10 cs

/-- An integer literal, with its optional leading `-` (R68). -/
def readIntLit (cs : List Char) : Option Int :=
  match cs with
  | '-' :: rest => (readNatLit rest).map fun n => -(n : Int)
  | _ => (readNatLit cs).map fun n => (n : Int)

/-- The colour a name stands for (R18, R68). -/
def colourOfName (cs : List Char) : Option Colour :=
  if cs = "BLACK".toList then some .black
  else if cs = "RED".toList then some .red
  else if cs = "GREEN".toList then some .green
  else if cs = "YELLOW".toList then some .yellow
  else if cs = "BLUE".toList then some .blue
  else if cs = "MAGENTA".toList then some .magenta
  else if cs = "CYAN".toList then some .cyan
  else if cs = "WHITE".toList then some .white
  else none

/-- A colour operand: a name, an alias of its index (R69), or an integer. -/
def readColourLit (cs : List Char) : Option Int :=
  match colourOfName cs with
  | some c => some (c.index.toNat : Int)
  | none => readIntLit cs

/-- A mnemonic and its operands as a line. -/
def lineOf (mnemonic : List Char) (operands : List (List Char)) : Option Line :=
  if mnemonic = "SETPIXEL".toList then
    match operands with
    | [x, y, c] =>
      match readIntLit x, readIntLit y, readColourLit c with
      | some x, some y, some c => some (.setPixel x y c)
      | _, _, _ => none
    | _ => none
  else if mnemonic = "GETPIXEL".toList then
    match operands with
    | [x, y] =>
      match readIntLit x, readIntLit y with
      | some x, some y => some (.getPixel x y)
      | _, _ => none
    | _ => none
  else if mnemonic = "CLEAR".toList ∧ operands = [] then some .clear
  else if mnemonic = "START".toList ∧ operands = [] then some .start
  else none

/-- The command of one line of text, none where it holds only a comment or white space. -/
def parseLine (cs : List Char) : Except LineError (Option Line) :=
  let body := (trimBlanks (cs.takeWhile (· ≠ ';'))).map Char.toUpper
  if body.isEmpty then .ok none
  else
    let rest := trimBlanks (body.dropWhile fun c => !isBlank c)
    let operands := if rest.isEmpty then [] else (splitCommas rest).map trimBlanks
    match lineOf (body.takeWhile fun c => !isBlank c) operands with
    | some l => .ok (some l)
    | none => .error .malformed

/-- The commands of a program's lines, in order (R68, R70). -/
def assembleLines : List (List Char) → Except LineError (List Instr)
  | [] => .ok []
  | cs :: more =>
    match parseLine cs, assembleLines more with
    | .error e, _ => .error e
    | .ok none, rest => rest
    | .ok (some _), .error e => .error e
    | .ok (some l), .ok rest =>
      match l.assemble with
      | some i => .ok (i :: rest)
      | none => .error .literalOutOfRange

/-- The bytes of a program: its commands' bytes in program order (R59, R70). -/
def encodeProgram (is : List Instr) : List Byte := is.flatMap encode

/-- An operation's name in text and in traces (R62, R68). -/
def mnemonicOf : Instr → String
  | .setPixel _ _ _ => "SETPIXEL"
  | .clear => "CLEAR"
  | .getPixel _ _ => "GETPIXEL"
  | .start => "START"
  | .clearStep => "CLEAR_STEP"
  | .pacerReq => "PACER_REQ"
  | .stream => "STREAM"
  | .reload => "RELOAD"
  | .pop => "POP"

/-- One hexadecimal digit. -/
def hexDigit (n : Nat) : Char := "0123456789ABCDEF".toList.getD (n % 16) '0'

/-- The lowest `k` hexadecimal digits of a number, the most significant first. -/
def hexDigits : Nat → Nat → List Char
  | 0, _ => []
  | k + 1, n => hexDigits k (n / 16) ++ [hexDigit n]

/-- The written form of an encoded command, `w [X Y]` (R68). -/
def encodedForm (i : Instr) : List Char :=
  hexDigits 2 (codeWord i).toNat ++ (operandWords i).flatMap fun v => ' ' :: hexDigits 8 v.toNat

end Sys2Proof.Machine
end

