-- ==== Sys2Proof/Machine/Trace.lean ====
section
/-! DEFINITION. Runs of the block and their traces (00_scope.md R15; 30_encoding.md R59, R68;
70_reset_and_hazards.md R130): which step a turn takes, the steps of a run in order, and their code words. -/

namespace Sys2Proof.Machine

/-- A step that was taken. A word the CPU port refuses is a step too, and stands in the trace (program P5 of
95_test_vectors.md, log 12). -/
inductive Taken where
  /-- An enabled operation of its agent. -/
  | operation (i : Instr)
  /-- A reserved word or an event's word refused at the CPU port (R64, R65). -/
  | refusedWord (w : Byte)
  deriving DecidableEq, Repr

/-- The code word of a step (R59). -/
def Taken.word : Taken → Byte
  | .operation i => codeWord i
  | .refusedWord w => w

/-- A step as text: an event by its mnemonic alone, a command in its encoded form, a refused word as two hex
digits (R68). -/
def Taken.text : Taken → List Char
  | .operation i => if i.isCommand then encodedForm i else (mnemonicOf i).toList
  | .refusedWord w => hexDigits 2 w.toNat

/-- The step this turn takes, none where the agent holds (R13, R86; log 7) or where there is no next state. -/
def State.taken (s : State) : Option Taken :=
  match step s with
  | .next _ =>
    match fetch s with
    | .run i t => if t.enabled i then some (.operation i) else none
    | .hold _ => none
    | .refuse _ _ => s.program.head?.map .refusedWord
  | .fault _ => none
  | .refused _ => none

/-- The state after `n` turns, a finite prefix of a run (R130). -/
def runFor : Nat → State → Result State
  | 0, s => .next s
  | n + 1, s => andThen (step s) (runFor n)

/-- The steps taken in the first `n` turns, in step order: a turn that holds takes none. -/
def takenOf : Nat → State → List Taken
  | 0, _ => []
  | n + 1, s =>
    match step s with
    | .next t => s.taken.toList ++ takenOf n t
    | .fault _ => []
    | .refused _ => []

/-- "A run's trace is the sequence of code words of the steps taken, in step order" (R59). -/
def traceOf (n : Nat) (s : State) : List Byte := (takenOf n s).map Taken.word

end Sys2Proof.Machine
end

