-- ==== Sys2Proof/Safety.lean ====
section
/-! DEFINITION. What claims about the block are stated in: the invariant of the reachable states (10_state.md
R29 to R33), the laws kept by counting (41_transfer.md R96), the premises of a correct run
(70_reset_and_hazards.md R121 to R126), reserved words (30_encoding.md R64), runs of operations, and which
states the pipeline cannot tell apart (41_transfer.md R98). -/

namespace Sys2Proof.Machine

/-- The cursor invariant (R29). The address is kept modulo `2 ^ 32`: at the one base with
`FB_BASE + TOTAL_BYTES = 2 ^ 32` the register cannot hold `FB_BASE + TOTAL_BYTES` itself (log 8). -/
structure State.CursorOk (s : State) : Prop where
  exhausted : s.pstate = .requestReset → s.remaining.toNat = 0
  running   : s.pstate ≠ .requestReset → 1 ≤ s.remaining.toNat
  bounded   : s.remaining.toNat ≤ Config.totalBytes
  address   : s.readAddress =
    s.params.fbBase + BitVec.ofNat 32 (Config.totalBytes - s.remaining.toNat)

/-- Every byte listed in memory is a framebuffer byte (R40, R42). -/
def State.MemInside (s : State) : Prop := ∀ c ∈ s.mem, s.inFramebuffer c.1 = true

/-- What holds in every reachable state: a configuration of this hardware (R123), the cursor invariant (R29),
the ranges of `req` (R30), `Q` (R31) and `clr` (R33), and canonical memory. -/
structure State.Inv (s : State) : Prop where
  config    : s.configOk = true
  cursor    : s.CursorOk
  requests  : s.req ≤ s.params.reqCreditMax
  queue     : s.q.length ≤ s.params.queueDepth
  clearing  : ∀ k ∈ s.clr, k < Config.totalBytes
  canonical : Memory.wf s.mem
  inside    : s.MemInside

/-- The pass law as a count: the bytes streamed and the bytes left make up the passes done and the one
running (R96). -/
def State.PassCountOk (s : State) : Prop :=
  s.streamed + s.remaining.toNat = (s.passes + 1) * Config.totalBytes

/-- Two samples for every byte streamed and no longer in the queue (R94, R95). -/
def State.SampleCountOk (s : State) : Prop := s.out.length + 2 * s.q.length = 2 * s.streamed

/-- The bytes a clear in progress has passed are zero (R78, R79). -/
def State.ZeroBelowClear (s : State) : Prop := ∀ k ∈ s.clr, ∀ j < k, s.fb j = 0

/-- A run is still within what the source guarantees: no fault recorded (R105), and no command refused ("a
refused state is never a good end state", R106). -/
def State.Clean (s : State) : Prop := s.faults = FaultSet.empty ∧ s.refused = false

/-- Premise `NoStarvation` of one step (R124). -/
def State.NoStarvation (s : State) (i : Instr) : Prop := i = .pop → s.q ≠ []

/-- Premise `NoOverrun` of one step (R126). -/
def State.NoOverrun (s : State) (i : Instr) : Prop := i = .pacerReq → s.req ≠ s.params.reqCreditMax

/-- The boot order of one step: no request before `START` (R103, R121). -/
def State.BootOrder (s : State) (i : Instr) : Prop := i = .pacerReq → s.pstate ≠ .armedIdle

/-- Every operation taken in the first `n` turns of the run from `s` meets `P` where it is taken: the premises
of one step as premises of a run (R124, R126). -/
def EveryTaken (P : State → Instr → Prop) : Nat → State → Prop
  | 0, _ => True
  | n + 1, s => (∀ i, s.taken = some (.operation i) → P s i) ∧ ∀ t, step s = .next t → EveryTaken P n t

/-- How often the run's first `n` turns take this operation: for `PACER_REQ` the requests issued, for `POP` the
bytes asked for by the display. -/
def timesTaken (i : Instr) (n : Nat) (s : State) : Nat := (takenOf n s).count (.operation i)

/-- The requests of one video frame, `H_PAIRS * V_ACTIVE_LINES` (R10, R122). -/
def State.frameRequests (s : State) : Nat := s.params.hPairs * s.params.vActiveLines

/-- A request of the pacer by its place in the video: the frame, and which of the frame's requests it is. -/
structure FrameRequest where
  frame : Nat
  index : Nat
  deriving DecidableEq, Repr

/-- Premise `FrameAligned` (R122) on the pacer's frames: where `pacer k` is the place in the video of the `k`-th
`PACER_REQ` of the run, from 0, the first is the first request of a frame, which is called frame 0, and every
frame has exactly `frameRequests` requests. The pacer's counter is no state of the block (R114), so the premise
is about a numbering of the run's requests and no step checks it (log 13). -/
def FrameAligned (frameRequests : Nat) (pacer : Nat → FrameRequest) : Prop :=
  pacer 0 = ⟨0, 0⟩ ∧ ∀ k, pacer (k + 1) =
    if (pacer k).index + 1 = frameRequests then ⟨(pacer k).frame + 1, 0⟩
    else ⟨(pacer k).frame, (pacer k).index + 1⟩

/-- R64's reserved words, by the arithmetic of their bits. -/
abbrev IsReservedWord (w : Byte) : Prop :=
  w.toNat / 16 ∈ [0x0, 0x6, 0x7, 0xC, 0xD, 0xE, 0xF] ∨ w.toNat / 8 % 2 = 1 ∨
    (w.toNat / 16 ≠ 0x1 ∧ w.toNat % 8 ≠ 0)

/-- A run of operations in this order, stopping at the first that stops. -/
def execMany : List Instr → State → Result State
  | [], s => .next s
  | i :: is, s => andThen (exec i s) (execMany is)

/-- The colours of the pixels `linear = 0 .. n-1` of a framebuffer, in order (R43, R97). -/
def rasterOf (fb : Nat → Byte) (n : Nat) : List ColourIndex :=
  (List.range n).map fun k => fieldOf (fb (k / 2)) (k % 2)

/-- The operations that do not belong to the CPU port (R98, R115). -/
def isPipeline (i : Instr) : Bool :=
  match i.agent with
  | .cpuPort => false
  | .clearSequencer => false
  | .unitA => true
  | .unitB => true
  | .pacer => true
  | .consumer => true

/-- The states differ at most in what the CPU port alone writes, the framebuffer aside (R98, R115). -/
def SameButCpuPort (s t : State) : Prop :=
  t = { s with clr := t.clr, refused := t.refused, results := t.results, program := t.program }

/-- The pipeline is as far in both states, whatever bytes it carries (R98). -/
def SamePace (s t : State) : Prop :=
  t = { s with
    mem := t.mem, clr := t.clr, refused := t.refused, results := t.results, program := t.program
    q := t.q, out := t.out } ∧ t.q.length = s.q.length ∧ t.out.length = s.out.length

end Sys2Proof.Machine
end

