-- ==== Sys2Proof/Certificates/Slice0/Obligations.lean ====
section
/-! DEFINITION. The statements about the model, from the numbered rules of spec/. OBLIGATIONS.json lists
them; Sys2Proof/Tests/Slice0.lean holds a witness of each one's hypotheses. -/

open Sys2Proof Sys2Proof.Machine

/-! ### Reset, configuration, turns -/

/-- R119: every field after reset that the rule gives a value, for every value of the open parameters. The
rule leaves the framebuffer's bytes unspecified (`ResetBytesAreFree`). -/
def Obligations.ResetStateValues : Prop :=
  ∀ p : Params, let s := State.resetWith p
    s.unitA = ⟨0b00, 1, 0, .colourQueue, 153600, 1, 1⟩ ∧ s.unitB = ⟨p.fbBase, .readAddress, 1, 1, 1⟩ ∧
    s.pstate = .armedIdle ∧ s.readAddress = p.fbBase ∧ s.remaining = 153600 ∧ s.req = 0 ∧ s.q = [] ∧
    s.clr = none ∧ s.faults = ⟨false, false, false⟩ ∧
    s.refused = false ∧ s.passes = 0 ∧ s.streamed = 0 ∧ s.out = []

/-- After reset a read of framebuffer byte `i` answers that byte's free draw, for every value of the open
parameters: the model's form (log 2) of "each byte is an arbitrary value" (R32, D10). -/
def Obligations.ResetBytesAreFree : Prop :=
  ∀ (p : Params) (i : Nat), i < Config.totalBytes →
    memRead (State.resetWith p) ((State.resetWith p).fbAddr i) = .next (Config.resetByte i)

/-- The block right after reset meets the invariant, for every well-formed value of the open parameters (R29,
R30, R31, R33, R119); so does `State.reset`. -/
def Obligations.ResetMeetsInvariant : Prop :=
  (∀ p : Params, p.wf = true → (State.resetWith p).Inv) ∧ State.reset.Inv

/-- R123: a configuration with any of the four defects is refused before any step. -/
def Obligations.BadConfigurationRefused : Prop :=
  ∀ s : State,
    s.params.hPairs * s.params.vActiveLines ≠ Config.totalBytes ∨ s.unitA.count ≠ BitVec.ofNat 32 Config.totalBytes ∨
      s.unitB.value ≠ s.params.fbBase ∨ Config.width % 2 = 1 →
    step s = .refused .invalidConfiguration

/-- Whose turn it is (log 6): the schedule's next agent, or a free one where the schedule is empty; a turn
changes nothing else. -/
def Obligations.TurnFollowsSchedule : Prop :=
  (∀ (s : State) (a : Agent) (rest : List Agent), s.schedule = a :: rest →
    s.nextAgent = a ∧ s.turnTaken = { s with schedule := rest }) ∧
  (∀ s : State, s.schedule = [] →
    s.nextAgent = Config.freeAgent s.draws ∧ s.turnTaken = { s with draws := s.draws + 1 })

/-- A step of the CPU port runs the command its program decodes to, with that command's words taken off the
program (R70, R115; the program field is the model's, log 5). -/
def Obligations.StepRunsDecodedCommand : Prop :=
  ∀ (s : State) (i : Instr) (rest : List Byte), s.configOk = true → s.nextAgent = .cpuPort → s.clr = none →
    decode s.program = .ok (i, rest) → i.isCommand = true →
    step s = exec i { s.turnTaken with program := rest }

/-- A turn of any other agent runs that agent's event (R15, R115). -/
def Obligations.StepRunsScheduledEvent : Prop :=
  ∀ (s : State) (i : Instr), s.configOk = true → i.isCommand = false → s.nextAgent = i.agent →
    step s = exec i s.turnTaken

/-- R80: no command while a clear is in progress: each one waits, and the port's turn takes none. -/
def Obligations.CommandsWaitForClear : Prop :=
  (∀ (i : Instr) (s : State), i.isCommand = true → s.clr ≠ none → exec i s = .next s) ∧
  (∀ s : State, s.configOk = true → s.nextAgent = .cpuPort → s.clr ≠ none → step s = .next s.turnTaken)

/-- A step whose condition is false does not exist: the agent holds and nothing changes (R13, R78, R80, R86,
R89, R92, R100; the next state that equals the state before is the model's form of it, log 7). -/
def Obligations.DisabledAgentHolds : Prop :=
  ∀ s : State,
    (s.pstate ≠ .streaming ∨ s.req = 0 ∨ s.params.queueDepth ≤ s.q.length → exec .stream s = .next s) ∧
    (s.pstate ≠ .requestReset → exec .reload s = .next s) ∧
    (s.clr = none → exec .clearStep s = .next s) ∧
    (s.clr ≠ none → ∀ (x y : Coord) (c : ColourIndex), exec (.setPixel x y c) s = .next s ∧
      exec (.getPixel x y) s = .next s ∧ exec .clear s = .next s ∧ exec .start s = .next s)

/-! ### Encoding -/

/-- R59 to R63: decoding what was encoded gives it back, every operand at every value, whatever follows. -/
def Obligations.DecodeOfEncode : Prop :=
  ∀ (i : Instr) (rest : List Byte), decode (encode i ++ rest) = .ok (i, rest)

/-- R63: a stream that decodes is the encoding of what it decodes to; no two encodings of one operation. -/
def Obligations.EncodeOfDecode : Prop :=
  ∀ (bytes rest : List Byte) (i : Instr), decode bytes = .ok (i, rest) → bytes = encode i ++ rest

/-- Words written out from R62's table, decoded (V-DECODE of 95_test_vectors.md). -/
def Obligations.SpecWordsDecode : Prop :=
  decodeTableWord 8 0x17 = some (.setPixel 0 0 7) ∧ decodeTableWord 8 0x20 = some .clear ∧
  decodeTableWord 72 0xFFFFFFFB000002BC30 = some (.getPixel 700 (-5)) ∧
  decodeTableWord 8 0x40 = some .start ∧ decodeTableWord 8 0x50 = some .clearStep ∧
  decodeTableWord 8 0x80 = some .pacerReq ∧ decodeTableWord 8 0x90 = some .stream ∧
  decodeTableWord 8 0xA0 = some .reload ∧ decodeTableWord 8 0xB0 = some .pop ∧
  decodeTableWord 8 0x18 = none ∧ decodeTableWord 8 0x21 = none ∧ decodeTableWord 8 0x98 = none

/-- R64: which words are reserved, that they are 240 of the 256, and that the CPU port refuses one with no
effect but the mark (and, the model's own fields, the turn taken and the word taken off the program). -/
def Obligations.ReservedWordRefused : Prop :=
  (∀ (w : Byte) (rest : List Byte), decode (w :: rest) = .error .reservedEncoding ↔ IsReservedWord w) ∧
  (((List.range 256).filter fun n =>
    decide (decode [BitVec.ofNat 8 n] = .error .reservedEncoding)).length = 240) ∧
  (∀ (s : State) (w : Byte) (rest : List Byte), s.configOk = true → s.nextAgent = .cpuPort → s.clr = none →
    s.program = w :: rest → IsReservedWord w →
    step s = .next { s.turnTaken with program := rest, refused := true })

/-- R65: the five events are refused at the CPU port, and only their agents take those steps, which change
nothing where they are not enabled. -/
def Obligations.EventWordRefused : Prop :=
  (∀ i : Instr, i.isCommand = false ↔
    i = .clearStep ∨ i = .pacerReq ∨ i = .stream ∨ i = .reload ∨ i = .pop) ∧
  (∀ (s : State) (i : Instr) (rest : List Byte), s.configOk = true → s.nextAgent = .cpuPort → s.clr = none →
    decode s.program = .ok (i, rest) → i.isCommand = false →
    step s = .next { s.turnTaken with program := rest, refused := true }) ∧
  (∀ (s u : State) (i : Instr), fetch s = .run i u → i.agent = s.nextAgent) ∧
  (∀ (s : State) (i : Instr), s.enabled i = false → exec i s = .next s)

/-- R68: each of the four kinds of line is assembled exactly where its literals are a `sint32` and its colour is
`0..7`, into the command of its kind with operands of the literals' values; the rule's example has the written
form it gives. -/
def Obligations.LinesAssembleInRange : Prop :=
  let sint32 (v : Int) : Prop := -2147483648 ≤ v ∧ v ≤ 2147483647
  (∀ x y c : Int, (sint32 x ∧ sint32 y ∧ 0 ≤ c ∧ c ≤ 7 →
      ∃ (a b : Coord) (d : ColourIndex), (Line.setPixel x y c).assemble = some (.setPixel a b d) ∧
        a.toInt = x ∧ b.toInt = y ∧ (d.toNat : Int) = c) ∧
    (¬ (sint32 x ∧ sint32 y ∧ 0 ≤ c ∧ c ≤ 7) → (Line.setPixel x y c).assemble = none)) ∧
  (∀ x y : Int, (sint32 x ∧ sint32 y →
      ∃ a b : Coord, (Line.getPixel x y).assemble = some (.getPixel a b) ∧ a.toInt = x ∧ b.toInt = y) ∧
    (¬ (sint32 x ∧ sint32 y) → (Line.getPixel x y).assemble = none)) ∧
  Line.clear.assemble = some .clear ∧ Line.start.assemble = some .start ∧
  ((assembleLines ["SetPixel 700, -5, 3 ; clamp".toList]).map fun is => is.map encodedForm) =
    .ok ["13 000002BC FFFFFFFB".toList]

/-- R17, R18: the palette's indices in order, and the channel of each bit. -/
def Obligations.PaletteChannels : Prop :=
  [Colour.black, .red, .green, .yellow, .blue, .magenta, .cyan, .white].map (fun c => c.index.toNat) =
    List.range 8 ∧
  Colour.yellow.index = Colour.red.index ||| Colour.green.index ∧
  Colour.magenta.index = Colour.red.index ||| Colour.blue.index ∧
  Colour.cyan.index = Colour.green.index ||| Colour.blue.index ∧
  (∀ c : Colour, redLine c.index = c.index.getLsbD 0 ∧ greenLine c.index = c.index.getLsbD 1 ∧
    blueLine c.index = c.index.getLsbD 2) ∧
  (redLine Colour.red.index ∧ greenLine Colour.green.index ∧ blueLine Colour.blue.index)

/-! ### The codec -/

/-- R71: `codec(X, Y)` for every pair of `sint32` values, and the range of what it computes. -/
def Obligations.CodecComputesField : Prop :=
  ∀ x y : Coord,
    let xc : Int := max 0 (min x.toInt 639)
    let yc : Int := max 0 (min y.toInt 479)
    let linear : Int := yc * 640 + xc
    ((codec x y).byteIndex : Int) = linear / 2 ∧ ((codec x y).nibble : Int) = linear % 2 ∧
      0 ≤ linear ∧ linear ≤ 307199 ∧ (codec x y).byteIndex ≤ 153599 ∧ (codec x y).nibble ≤ 1

/-- R72: a coordinate off the screen writes the pixel on the nearest edge in that axis, for every value; with
the rule's two examples. -/
def Obligations.OffScreenWritesNearestEdge : Prop :=
  (∀ (x y x' y' : Coord) (c : ColourIndex) (s : State),
    x'.toInt = (if x.toInt < 0 then 0 else if 639 < x.toInt then 639 else x.toInt) →
    y'.toInt = (if y.toInt < 0 then 0 else if 479 < y.toInt then 479 else y.toInt) →
    exec (.setPixel x y c) s = exec (.setPixel x' y' c) s ∧ exec (.getPixel x y) s = exec (.getPixel x' y') s) ∧
  (∀ (c : ColourIndex) (s : State), exec (.setPixel 700 (-5) c) s = exec (.setPixel 639 0 c) s ∧
    exec (.setPixel 700 3 c) s = exec (.setPixel 639 3 c) s)

/-- R43: where the pixel `(x, y)` of the screen lies, and that byte `i` holds the pixels `2i` and `2i + 1`
and no other. -/
def Obligations.ByteHoldsTwoPixels : Prop :=
  (∀ x y : Coord, x.toNat < 640 → y.toNat < 480 →
    (codec x y).byteIndex = (y.toNat * 640 + x.toNat) / 2 ∧
    (codec x y).nibble = (y.toNat * 640 + x.toNat) % 2) ∧
  (∀ (i n : Nat), i < Config.totalBytes → n < 2 →
    ∃ x y : Coord, x.toNat < 640 ∧ y.toNat < 480 ∧ codec x y = ⟨i, n⟩ ∧ y.toNat * 640 + x.toNat = 2 * i + n ∧
      y.toNat = i / 320 ∧ x.toNat = 2 * (i % 320) + n ∧
      ∀ x' y' : Coord, x'.toNat < 640 → y'.toNat < 480 → codec x' y' = ⟨i, n⟩ → x' = x ∧ y' = y)

/-- R45: the two pixels of one byte are neighbours in one row of 320 bytes. -/
def Obligations.RowOfThreeHundredTwentyBytes : Prop :=
  ∀ k y : Nat, k < 320 → y < 480 →
    codec (BitVec.ofNat 32 (2 * k)) (BitVec.ofNat 32 y) = ⟨y * 320 + k, 0⟩ ∧
    codec (BitVec.ofNat 32 (2 * k + 1)) (BitVec.ofNat 32 y) = ⟨y * 320 + k, 1⟩

/-! ### The CPU port's operations -/

/-- R74: `SETPIXEL` ORs the colour into the one field and changes nothing else. -/
def Obligations.SetPixelOrsOneField : Prop :=
  ∀ (s : State) (x y : Coord) (c : ColourIndex), s.clr = none →
    codeWord (.setPixel x y c) = 0b00010#5 ++ c ∧ operandWords (.setPixel x y c) = [x, y] ∧
    ∃ t, exec (.setPixel x y c) s = .next t ∧ t = { s with mem := t.mem } ∧
      memRead t (s.fbAddr (codec x y).byteIndex) =
        .next (s.fb (codec x y).byteIndex ||| (c.setWidth 8 <<< (3 * (codec x y).nibble))) ∧
      ∀ a, a ≠ s.fbAddr (codec x y).byteIndex → memRead t a = memRead s a

/-- R75: writes accumulate: no bit of the framebuffer is cleared but by the bytes of a clear, two pixel
writes commute, and a repeated one changes nothing. -/
def Obligations.PixelWritesAccumulate : Prop :=
  (∀ (i : Instr) (s t : State), exec i s = .next t → i ≠ .clearStep →
    ∀ a k, (s.byteAt a).getLsbD k = true → (t.byteAt a).getLsbD k = true) ∧
  (∀ (s : State) (x y x' y' : Coord) (c c' : ColourIndex),
    andThen (exec (.setPixel x y c) s) (exec (.setPixel x' y' c')) =
      andThen (exec (.setPixel x' y' c') s) (exec (.setPixel x y c))) ∧
  (∀ (s : State) (x y : Coord) (c : ColourIndex),
    andThen (exec (.setPixel x y c) s) (exec (.setPixel x y c)) = exec (.setPixel x y c) s)

/-- R83: `SETPIXEL` changes only the bits `[3n+2:3n]` of `FB[i]`, so bits `[7:6]` (R46) and every other
pixel's field stay. -/
def Obligations.SetPixelTouchesOnlyItsField : Prop :=
  ∀ (s t : State) (x y : Coord) (c : ColourIndex), exec (.setPixel x y c) s = .next t →
    (∀ j k, k < 8 → ¬ (j = (codec x y).byteIndex ∧
        3 * (codec x y).nibble ≤ k ∧ k < 3 * (codec x y).nibble + 3) →
      (t.fb j).getLsbD k = (s.fb j).getLsbD k) ∧
    (∀ j n, n < 2 → (j, n) ≠ ((codec x y).byteIndex, (codec x y).nibble) →
      fieldOf (t.fb j) n = fieldOf (s.fb j) n)

/-- R81: `GETPIXEL` puts the pixel's three bits on the result output (the field `results` is the model's,
log 4) and changes nothing else. -/
def Obligations.GetPixelReadsField : Prop :=
  ∀ (s : State) (x y : Coord), s.clr = none →
    codeWord (.getPixel x y) = 0b00110000 ∧ operandWords (.getPixel x y) = [x, y] ∧
    ∃ r : ColourIndex, exec (.getPixel x y) s = .next { s with results := s.results ++ [r] } ∧
      r.toNat = (s.fb (codec x y).byteIndex).toNat / 2 ^ (3 * (codec x y).nibble) % 8

/-- R82: what `GETPIXEL` returns before and after a `SETPIXEL` of the same pixel; on a zero byte it is the
colour itself, and a repeated write changes nothing. -/
def Obligations.GetPixelAfterSetPixel : Prop :=
  ∀ (s : State) (x y : Coord) (c : ColourIndex), s.clr = none →
    ∃ (old : ColourIndex) (t : State),
      exec (.getPixel x y) s = .next { s with results := s.results ++ [old] } ∧
      exec (.setPixel x y c) s = .next t ∧
      exec (.getPixel x y) t = .next { t with results := t.results ++ [old ||| c] } ∧
      (s.fb (codec x y).byteIndex = 0 → old ||| c = c) ∧
      exec (.setPixel x y c) t = .next t

/-- R77: `CLEAR` only starts the clear, in any pipeline state; its `TOTAL_BYTES` clear steps leave every byte
0 and nothing else changed, and none of them may be missing. -/
def Obligations.ClearZeroesFramebuffer : Prop :=
  encode .clear = [0b00100000] ∧ ∀ s : State, s.clr = none →
    exec .clear s = .next { s with clr := some 0 } ∧
    (∀ n, n < Config.totalBytes →
      ∃ t, execMany (.clear :: List.replicate n .clearStep) s = .next t ∧ t.clr = some n) ∧
    ∃ t, execMany (.clear :: List.replicate Config.totalBytes .clearStep) s = .next t ∧
      t = { s with mem := t.mem } ∧ ∀ i, i < Config.totalBytes → t.fb i = 0

/-- R78: `CLEAR_STEP` zeroes the one whole byte and moves on, or ends the clear after the last. -/
def Obligations.ClearStepZeroesOneByte : Prop :=
  encode .clearStep = [0b01010000] ∧ ∀ (s : State) (k : Nat), s.clr = some k → k < Config.totalBytes →
    ∃ t, exec .clearStep s = .next t ∧
      t = { s with mem := t.mem, clr := if k + 1 = Config.totalBytes then none else some (k + 1) } ∧
      memRead t (s.fbAddr k) = .next 0 ∧ ∀ a, a ≠ s.fbAddr k → memRead t a = memRead s a

/-- R79: whatever other agents do in between, the bytes a clear has passed stay zero until it ends, and when
it ends the whole framebuffer is zero. -/
def Obligations.ClearLeavesZeroBehind : Prop :=
  ∀ s t : State, s.Inv → s.ZeroBelowClear → step s = .next t →
    t.ZeroBelowClear ∧
      (s.clr ≠ none → t.clr = none → ∀ i, i < Config.totalBytes → t.fb i = 0)

/-! ### The transfer pipeline -/

/-- R87: `START` enables the streaming unit, and is refused outside `ARMED_IDLE`. -/
def Obligations.StartEnablesOrRefuses : Prop :=
  encode .start = [0b01000000] ∧ ∀ s : State, s.clr = none →
    (s.pstate = .armedIdle → exec .start s = .next { s with pstate := .streaming }) ∧
    (s.pstate ≠ .armedIdle → exec .start s = .next { s with refused := true })

/-- R88: one request is counted, or a fault is recorded, in the order the rule gives. -/
def Obligations.PacerReqCountsOrFaults : Prop :=
  encode .pacerReq = [0b10000000] ∧ ∀ s : State,
    (s.pstate = .armedIdle → exec .pacerReq s = .next { s with faults := { s.faults with frameMisalign := true } }) ∧
    (s.pstate ≠ .armedIdle → s.req = s.params.reqCreditMax →
      exec .pacerReq s = .next { s with faults := { s.faults with reqOverrun := true } }) ∧
    (s.pstate ≠ .armedIdle → s.req ≠ s.params.reqCreditMax →
      exec .pacerReq s = .next { s with req := s.req + 1 })

/-- R89: `STREAM` where it is enabled and the cursor is in the framebuffer (which R29 says it always is). -/
def Obligations.StreamMovesOneByte : Prop :=
  encode .stream = [0b10010000] ∧ ∀ s : State, s.pstate = .streaming → 0 < s.req → s.q.length < s.params.queueDepth →
    s.inFramebuffer s.readAddress.toNat = true →
    exec .stream s = .next { s with
      q := s.q ++ [s.byteAt s.readAddress.toNat]
      req := s.req - 1
      readAddress := s.readAddress + 1
      remaining := s.remaining - 1
      streamed := s.streamed + 1
      pstate := if s.remaining = 1 then .requestReset else .streaming }

/-- R13 leaves `MemRead` undefined outside the framebuffer: there, and only there, a `STREAM` stops. -/
def Obligations.StreamFaultsOnlyOutsideFramebuffer : Prop :=
  ∀ s : State, exec .stream s = .fault .outsideFramebuffer ↔
    s.pstate = .streaming ∧ 0 < s.req ∧ s.q.length < s.params.queueDepth ∧
      s.inFramebuffer s.readAddress.toNat = false

/-- R90: a pass streams the framebuffer in ascending order: the byte streamed is that of the index by which
the count of streamed bytes exceeds those of the passes done. -/
def Obligations.PassStreamsAscending : Prop :=
  ∀ s t : State, s.Inv → s.PassCountOk → s.enabled .stream = true → exec .stream s = .next t →
    t.q = s.q ++ [s.fb (s.streamed - s.passes * Config.totalBytes)] ∧
      s.streamed - s.passes * Config.totalBytes < Config.totalBytes

/-- R91: `REQUEST_RESET` is entered by the pass's last transfer, in its own step, and by nothing else. -/
def Obligations.OnlyLastTransferTriggersUnitB : Prop :=
  (∀ (i : Instr) (s t : State), exec i s = .next t → s.pstate ≠ .requestReset →
    (t.pstate = .requestReset ↔ i = .stream ∧ s.enabled .stream = true ∧ s.remaining = 1)) ∧
  (∀ s : State, s.enabled .reload = true ↔ s.pstate = .requestReset)

/-- R92: `RELOAD` rewinds and re-arms Unit A from the fixed fields, which in a configuration of this hardware
are `FB_BASE` and `TOTAL_BYTES`. -/
def Obligations.ReloadRewindsCursor : Prop :=
  encode .reload = [0b10100000] ∧ ∀ s : State, s.pstate = .requestReset →
    exec .reload s = .next { s with
      readAddress := s.unitB.value
      remaining := s.unitA.count
      pstate := .streaming
      passes := s.passes + 1 } ∧
    (s.configOk = true → s.unitB.value = s.params.fbBase ∧ s.unitA.count.toNat = 153600)

/-- R93: requests are counted at the boundary as in `STREAMING`, `RELOAD` keeps them, `STREAM` waits, and over
any step each accepted request is either pending or served. -/
def Obligations.RequestsServedExactlyOnce : Prop :=
  (∀ (i : Instr) (s t : State), exec i s = .next t →
    t.req + t.streamed = s.req + s.streamed +
      (if i = .pacerReq ∧ s.pstate ≠ .armedIdle ∧ s.req ≠ s.params.reqCreditMax then 1 else 0)) ∧
  (∀ s : State, s.pstate = .requestReset → s.req ≠ s.params.reqCreditMax →
    exec .pacerReq s = .next { s with req := s.req + 1 } ∧ exec .stream s = .next s ∧
      ∀ t, exec .reload s = .next t → t.req = s.req)

/-- R94: `POP` takes the oldest byte and emits its two samples, or records the underflow. -/
def Obligations.PopEmitsTwoSamples : Prop :=
  encode .pop = [0b10110000] ∧ (∀ (s : State) (b : Byte) (rest : List Byte), s.q = b :: rest →
    exec .pop s = .next { s with q := rest, out := s.out ++ [b.extractLsb' 0 3, b.extractLsb' 3 3] }) ∧
  (∀ s : State, s.q = [] → exec .pop s = .next { s with faults := { s.faults with starvation := true } })

/-- R95, R44: the samples of a byte are its low field, then its high field, whatever bits `[7:6]` hold; the red,
green and blue lines of a sample are its bits 0, 1 and 2. -/
def Obligations.SamplesAreTheTwoFields : Prop :=
  (∀ b : Byte, samplesOf b = [BitVec.ofNat 3 (b.toNat % 8), BitVec.ofNat 3 (b.toNat / 8 % 8)] ∧
    samplesOf b = [fieldOf b 0, fieldOf b 1] ∧ samplesOf (b ||| 0xC0) = samplesOf b) ∧
  ∀ c : ColourIndex, (redLine c).toNat + 2 * (greenLine c).toNat + 4 * (blueLine c).toNat = c.toNat

/-- R96: the pass law: streamed bytes and bytes left make up whole passes, at every step; a `RELOAD` comes
after exactly `TOTAL_BYTES` bytes more, and leaves the cursor at the base. -/
def Obligations.PassLaw : Prop :=
  (∀ s t : State, s.Inv → s.PassCountOk → step s = .next t → t.PassCountOk) ∧
  (∀ s t : State, s.Inv → s.PassCountOk → s.pstate = .requestReset → exec .reload s = .next t →
    t.streamed = t.passes * Config.totalBytes ∧ t.readAddress = s.params.fbBase ∧
      t.remaining = BitVec.ofNat 32 Config.totalBytes)

/-- R97: over any run within one pass in which no step writes the framebuffer, what the consumer has emitted
and what is queued grows by the colours of the pass's pixels in linear order; so a whole pass, its bytes all
taken, emits the frame in linear order. -/
def Obligations.OutputLawOfOnePass : Prop :=
  ∀ (is : List Instr) (s t : State), s.Inv → s.remaining.toNat = Config.totalBytes →
    (∀ i ∈ is, (∀ (x y : Coord) (c : ColourIndex), i ≠ .setPixel x y c) ∧ i ≠ .clearStep ∧ i ≠ .reload) → execMany is s = .next t →
    t.out ++ t.q.flatMap samplesOf =
      s.out ++ s.q.flatMap samplesOf ++ rasterOf s.fb (2 * (Config.totalBytes - t.remaining.toNat)) ∧
    (s.q = [] → t.q = [] → t.remaining.toNat = 0 → t.out = s.out ++ rasterOf s.fb 307200)

/-- Two samples for every byte that has left the queue: kept by every step from every state (R94, R95). -/
def Obligations.TwoSamplesPerByte : Prop :=
  ∀ s t : State, s.SampleCountOk → step s = .next t → t.SampleCountOk

/-- R98: the pipeline neither waits for nor reads anything the CPU port writes but the framebuffer, and the
framebuffer only decides which bytes it carries, never its pace. -/
def Obligations.PipelineIgnoresCpuPort : Prop :=
  (∀ (i : Instr) (s s' t : State), isPipeline i = true → SameButCpuPort s s' → exec i s = .next t →
    s.enabled i = s'.enabled i ∧ ∃ t', exec i s' = .next t' ∧ SameButCpuPort t t') ∧
  (∀ (i : Instr) (s s' t : State), isPipeline i = true → SamePace s s' → exec i s = .next t →
    s.enabled i = s'.enabled i ∧ ∃ t', exec i s' = .next t' ∧ SamePace t t')

/-- R99: once out of `ARMED_IDLE` the pipeline never returns to it. -/
def Obligations.PipelineNeverStops : Prop :=
  ∀ s t : State, step s = .next t → s.pstate ≠ .armedIdle → t.pstate ≠ .armedIdle

/-! ### Faults, agents, the whole machine -/

/-- R101, R106: no step takes a kind out of the fault set or clears the refusal mark. -/
def Obligations.FaultsAndMarkAreSticky : Prop :=
  ∀ s t : State, step s = .next t →
    (∀ k : FaultKind, s.faults.has k = true → t.faults.has k = true) ∧ (s.refused = true → t.refused = true)

/-- R102, R103, R104, R107: which operation records which kind, and exactly when. -/
def Obligations.FaultsRaisedOnlyWhereStated : Prop :=
  ∀ (i : Instr) (s t : State) (k : FaultKind), exec i s = .next t → s.faults.has k = false →
    (t.faults.has k = true ↔
      (k = .starvation ∧ i = .pop ∧ s.q = []) ∨
      (k = .frameMisalign ∧ i = .pacerReq ∧ s.pstate = .armedIdle) ∨
      (k = .reqOverrun ∧ i = .pacerReq ∧ s.pstate ≠ .armedIdle ∧ s.req = s.params.reqCreditMax))

/-- R110: a step that records a fault or a refusal changes nothing else. -/
def Obligations.RaisingStepHasNoOtherEffect : Prop :=
  ∀ (i : Instr) (s t : State), exec i s = .next t →
    (t.faults ≠ s.faults → t = { s with faults := t.faults }) ∧
    (t.refused ≠ s.refused → t = { s with refused := true })

/-- The frame of every operation, within its agent's row of R115's table: the fields it may write, and for the
two that store the one address they store to, every other reading as before (R74, R77, R78, R81, R87 to R94).
`results` is the model's place for what `GETPIXEL` returns (log 4). So no operation writes the parameters or the
fixed fields (R24, R25). -/
def Obligations.AgentsWriteOnlyTheirState : Prop :=
  ∀ (i : Instr) (s t : State), exec i s = .next t →
    match i with
    | .setPixel x y _ => t = { s with mem := t.mem } ∧
        ∀ a, a ≠ s.fbAddr (codec x y).byteIndex → memRead t a = memRead s a
    | .clear => t = { s with clr := t.clr }
    | .getPixel _ _ => t = { s with results := t.results }
    | .start => t = { s with pstate := t.pstate, refused := t.refused }
    | .clearStep => t = { s with mem := t.mem, clr := t.clr } ∧
        ∀ a, (∀ k, s.clr = some k → a ≠ s.fbAddr k) → memRead t a = memRead s a
    | .stream => t = { s with
        q := t.q, req := t.req, readAddress := t.readAddress, remaining := t.remaining
        pstate := t.pstate, streamed := t.streamed }
    | .reload => t = { s with
        readAddress := t.readAddress, remaining := t.remaining, pstate := t.pstate, passes := t.passes }
    | .pacerReq => t = { s with req := t.req, faults := t.faults }
    | .pop => t = { s with q := t.q, out := t.out, faults := t.faults }

/-- R41, R51, R55: only `SETPIXEL` and `CLEAR_STEP` change a byte: after every other operation every address
reads as before. -/
def Obligations.OnlyTwoOperationsStore : Prop :=
  ∀ (i : Instr) (s t : State), exec i s = .next t →
    (∀ (x y : Coord) (c : ColourIndex), i ≠ .setPixel x y c) → i ≠ .clearStep →
    ∀ a, memRead t a = memRead s a

/-- R124, R126, R103: under the premises a step records no fault. -/
def Obligations.PremisesExcludeFaults : Prop :=
  ∀ (i : Instr) (s t : State), exec i s = .next t → s.faults = FaultSet.empty →
    s.NoStarvation i → s.NoOverrun i → s.BootOrder i → t.faults = FaultSet.empty

/-- The count under R122: outside `REQUEST_RESET` the bytes streamed, divided by the requests of a frame, are the
passes done, and the remainder is the cursor's offset. That the passes are the pacer's frames takes R122's
premises: `PassIsVideoFrame`. -/
def Obligations.PassNumberIsStreamedQuotient : Prop :=
  ∀ s : State, s.Inv → s.PassCountOk → s.pstate ≠ .requestReset →
    s.streamed / s.frameRequests = s.passes ∧
      s.readAddress = s.params.fbBase + BitVec.ofNat 32 (s.streamed % s.frameRequests)

/-- Events that R109 lets fall in either order lead to the same state in both (R78, R88, R89, R94): a request and
a transfer, an underflow-free pop and a transfer, a clear step and a transfer of another byte. -/
def Obligations.SimultaneousEventsCommute : Prop :=
  ∀ s : State, s.Inv → s.enabled .stream = true →
    (s.req ≠ s.params.reqCreditMax →
      andThen (exec .pacerReq s) (exec .stream) = andThen (exec .stream s) (exec .pacerReq)) ∧
    (s.q ≠ [] → andThen (exec .pop s) (exec .stream) = andThen (exec .stream s) (exec .pop)) ∧
    (s.clr ≠ some (Config.totalBytes - s.remaining.toNat) →
      andThen (exec .clearStep s) (exec .stream) = andThen (exec .stream s) (exec .clearStep))

/-- R29 in numbers, in every state that meets the invariant, wherever `FB_BASE + TOTAL_BYTES` fits the
register (log 8). -/
def Obligations.CursorStaysInFramebuffer : Prop :=
  ∀ s : State, s.Inv → s.params.fbBase.toNat + Config.totalBytes < 2 ^ 32 →
    (s.pstate = .requestReset → s.remaining = 0 ∧
      s.readAddress.toNat = s.params.fbBase.toNat + Config.totalBytes) ∧
    (s.pstate ≠ .requestReset → 1 ≤ s.remaining.toNat ∧ s.remaining.toNat ≤ Config.totalBytes ∧
      s.readAddress.toNat = s.params.fbBase.toNat + (Config.totalBytes - s.remaining.toNat) ∧
      s.inFramebuffer s.readAddress.toNat = true)

/-- Every step keeps the invariant: the configuration, the cursor (R29), the ranges of `req`, `Q` and `clr`
(R30, R31, R33) and the canonical form of memory. -/
def Obligations.StepKeepsInvariant : Prop :=
  ∀ s t : State, s.Inv → step s = .next t → t.Inv

/-- R107, R130: from a state that meets the invariant every step answers a next state: nothing the agents do
stops the block. -/
def Obligations.StepAlwaysAnswers : Prop :=
  ∀ s : State, s.Inv → ∃ t, step s = .next t

/-! ### Runs -/

/-- R59, R64, R65: what each turn contributes to the trace. A turn that takes no step changes nothing but whose
turn it is; a step taken is an enabled operation of the agent whose turn it is, the CPU port's being what its
program decodes to, or a word refused at the port; and the trace of a run is their code words in order. That a
refused word stands in the trace is read from program P5 (log 12). -/
def Obligations.TraceHoldsStepsTaken : Prop :=
  (∀ s t : State, step s = .next t →
    (s.taken = none → t = s.turnTaken) ∧
    (∀ i, s.taken = some (.operation i) →
      i.agent = s.nextAgent ∧ s.enabled i = true ∧ ∃ rest,
        exec i { s.turnTaken with program := rest } = .next t ∧
        (i.isCommand = true → decode s.program = .ok (i, rest)) ∧ (i.isCommand = false → rest = s.program)) ∧
    (∀ w, s.taken = some (.refusedWord w) →
      s.nextAgent = .cpuPort ∧ s.clr = none ∧
        (IsReservedWord w ∨ ∃ i : Instr, i.isCommand = false ∧ w = codeWord i) ∧
        ∃ rest, s.program = w :: rest ∧ t = { s.turnTaken with program := rest, refused := true }) ∧
    (∀ n, traceOf (n + 1) s = (s.taken.map Taken.word).toList ++ traceOf n t)) ∧
  (∀ s : State, traceOf 0 s = []) ∧ ∀ i : Instr, (Taken.operation i).word = codeWord i

/-- R122: along every run from reset in which the pacer's frames are aligned, no `POP` starves, no request
overruns and none comes before `START`, the passes are the video frames: the request served next is the one the
video numbers by this pass and this index, the byte read for it is the one of that index, and the display has
taken the bytes of as many requests as it asked for. R122 names the first two premises; that the requests must
also not be dropped (R126) or come early (R121) is the model's reading (log 13). -/
def Obligations.PassIsVideoFrame : Prop :=
  ∀ (p : Params) (program : List Byte) (schedule : List Agent) (pacer : Nat → FrameRequest) (n : Nat) (t : State),
    let s : State := { State.resetWith p with program := program, schedule := schedule }
    p.wf = true → FrameAligned s.frameRequests pacer → EveryTaken State.NoStarvation n s →
    EveryTaken State.NoOverrun n s → EveryTaken State.BootOrder n s → runFor n s = .next t →
      timesTaken .pacerReq n s = t.streamed + t.req ∧ timesTaken .pop n s + t.q.length = t.streamed ∧
      (t.pstate ≠ .requestReset → (pacer t.streamed).frame = t.passes ∧
        t.readAddress = p.fbBase + BitVec.ofNat 32 (pacer t.streamed).index) ∧
      (t.pstate = .requestReset → pacer t.streamed = ⟨t.passes + 1, 0⟩) ∧
      ∀ u, t.enabled .stream = true → exec .stream t = .next u →
        u.q = t.q ++ [t.fb (pacer t.streamed).index]
end

