-- ==== Sys2Proof/Laws/State.lean ====
section
/-! SUPPORT. What each named update of State does to each field, and what reset leaves. -/

namespace Sys2Proof.Machine

variable (s : State)

@[simp] theorem State.putByte_params (a : Nat) (v : Byte) : (s.putByte a v).params = s.params := rfl
@[simp] theorem State.putByte_unitA (a : Nat) (v : Byte) : (s.putByte a v).unitA = s.unitA := rfl
@[simp] theorem State.putByte_unitB (a : Nat) (v : Byte) : (s.putByte a v).unitB = s.unitB := rfl
@[simp] theorem State.putByte_mem (a : Nat) (v : Byte) : (s.putByte a v).mem = Memory.write s.mem a v := rfl
@[simp] theorem State.putByte_pstate (a : Nat) (v : Byte) : (s.putByte a v).pstate = s.pstate := rfl
@[simp] theorem State.putByte_readAddress (a : Nat) (v : Byte) : (s.putByte a v).readAddress = s.readAddress := rfl
@[simp] theorem State.putByte_remaining (a : Nat) (v : Byte) : (s.putByte a v).remaining = s.remaining := rfl
@[simp] theorem State.putByte_req (a : Nat) (v : Byte) : (s.putByte a v).req = s.req := rfl
@[simp] theorem State.putByte_q (a : Nat) (v : Byte) : (s.putByte a v).q = s.q := rfl
@[simp] theorem State.putByte_clr (a : Nat) (v : Byte) : (s.putByte a v).clr = s.clr := rfl
@[simp] theorem State.putByte_faults (a : Nat) (v : Byte) : (s.putByte a v).faults = s.faults := rfl
@[simp] theorem State.putByte_refused (a : Nat) (v : Byte) : (s.putByte a v).refused = s.refused := rfl
@[simp] theorem State.putByte_passes (a : Nat) (v : Byte) : (s.putByte a v).passes = s.passes := rfl
@[simp] theorem State.putByte_streamed (a : Nat) (v : Byte) : (s.putByte a v).streamed = s.streamed := rfl
@[simp] theorem State.putByte_out (a : Nat) (v : Byte) : (s.putByte a v).out = s.out := rfl
@[simp] theorem State.putByte_results (a : Nat) (v : Byte) : (s.putByte a v).results = s.results := rfl
@[simp] theorem State.putByte_program (a : Nat) (v : Byte) : (s.putByte a v).program = s.program := rfl
@[simp] theorem State.putByte_schedule (a : Nat) (v : Byte) : (s.putByte a v).schedule = s.schedule := rfl
@[simp] theorem State.putByte_draws (a : Nat) (v : Byte) : (s.putByte a v).draws = s.draws := rfl

@[simp] theorem State.raise_params (k : FaultKind) : (s.raise k).params = s.params := rfl
@[simp] theorem State.raise_unitA (k : FaultKind) : (s.raise k).unitA = s.unitA := rfl
@[simp] theorem State.raise_unitB (k : FaultKind) : (s.raise k).unitB = s.unitB := rfl
@[simp] theorem State.raise_mem (k : FaultKind) : (s.raise k).mem = s.mem := rfl
@[simp] theorem State.raise_pstate (k : FaultKind) : (s.raise k).pstate = s.pstate := rfl
@[simp] theorem State.raise_readAddress (k : FaultKind) : (s.raise k).readAddress = s.readAddress := rfl
@[simp] theorem State.raise_remaining (k : FaultKind) : (s.raise k).remaining = s.remaining := rfl
@[simp] theorem State.raise_req (k : FaultKind) : (s.raise k).req = s.req := rfl
@[simp] theorem State.raise_q (k : FaultKind) : (s.raise k).q = s.q := rfl
@[simp] theorem State.raise_clr (k : FaultKind) : (s.raise k).clr = s.clr := rfl
@[simp] theorem State.raise_faults (k : FaultKind) : (s.raise k).faults = s.faults.add k := rfl
@[simp] theorem State.raise_refused (k : FaultKind) : (s.raise k).refused = s.refused := rfl
@[simp] theorem State.raise_passes (k : FaultKind) : (s.raise k).passes = s.passes := rfl
@[simp] theorem State.raise_streamed (k : FaultKind) : (s.raise k).streamed = s.streamed := rfl
@[simp] theorem State.raise_out (k : FaultKind) : (s.raise k).out = s.out := rfl
@[simp] theorem State.raise_results (k : FaultKind) : (s.raise k).results = s.results := rfl
@[simp] theorem State.raise_program (k : FaultKind) : (s.raise k).program = s.program := rfl
@[simp] theorem State.raise_schedule (k : FaultKind) : (s.raise k).schedule = s.schedule := rfl
@[simp] theorem State.raise_draws (k : FaultKind) : (s.raise k).draws = s.draws := rfl

@[simp] theorem State.refuse_params (r : RefuseReason) : (s.refuse r).params = s.params := rfl
@[simp] theorem State.refuse_unitA (r : RefuseReason) : (s.refuse r).unitA = s.unitA := rfl
@[simp] theorem State.refuse_unitB (r : RefuseReason) : (s.refuse r).unitB = s.unitB := rfl
@[simp] theorem State.refuse_mem (r : RefuseReason) : (s.refuse r).mem = s.mem := rfl
@[simp] theorem State.refuse_pstate (r : RefuseReason) : (s.refuse r).pstate = s.pstate := rfl
@[simp] theorem State.refuse_readAddress (r : RefuseReason) : (s.refuse r).readAddress = s.readAddress := rfl
@[simp] theorem State.refuse_remaining (r : RefuseReason) : (s.refuse r).remaining = s.remaining := rfl
@[simp] theorem State.refuse_req (r : RefuseReason) : (s.refuse r).req = s.req := rfl
@[simp] theorem State.refuse_q (r : RefuseReason) : (s.refuse r).q = s.q := rfl
@[simp] theorem State.refuse_clr (r : RefuseReason) : (s.refuse r).clr = s.clr := rfl
@[simp] theorem State.refuse_faults (r : RefuseReason) : (s.refuse r).faults = s.faults := rfl
@[simp] theorem State.refuse_refused (r : RefuseReason) : (s.refuse r).refused = true := rfl
@[simp] theorem State.refuse_passes (r : RefuseReason) : (s.refuse r).passes = s.passes := rfl
@[simp] theorem State.refuse_streamed (r : RefuseReason) : (s.refuse r).streamed = s.streamed := rfl
@[simp] theorem State.refuse_out (r : RefuseReason) : (s.refuse r).out = s.out := rfl
@[simp] theorem State.refuse_results (r : RefuseReason) : (s.refuse r).results = s.results := rfl
@[simp] theorem State.refuse_program (r : RefuseReason) : (s.refuse r).program = s.program := rfl
@[simp] theorem State.refuse_schedule (r : RefuseReason) : (s.refuse r).schedule = s.schedule := rfl
@[simp] theorem State.refuse_draws (r : RefuseReason) : (s.refuse r).draws = s.draws := rfl

@[simp] theorem State.turnTaken_params : s.turnTaken.params = s.params := by
  unfold State.turnTaken; cases s.schedule <;> rfl
@[simp] theorem State.turnTaken_unitA : s.turnTaken.unitA = s.unitA := by
  unfold State.turnTaken; cases s.schedule <;> rfl
@[simp] theorem State.turnTaken_unitB : s.turnTaken.unitB = s.unitB := by
  unfold State.turnTaken; cases s.schedule <;> rfl
@[simp] theorem State.turnTaken_mem : s.turnTaken.mem = s.mem := by
  unfold State.turnTaken; cases s.schedule <;> rfl
@[simp] theorem State.turnTaken_pstate : s.turnTaken.pstate = s.pstate := by
  unfold State.turnTaken; cases s.schedule <;> rfl
@[simp] theorem State.turnTaken_readAddress : s.turnTaken.readAddress = s.readAddress := by
  unfold State.turnTaken; cases s.schedule <;> rfl
@[simp] theorem State.turnTaken_remaining : s.turnTaken.remaining = s.remaining := by
  unfold State.turnTaken; cases s.schedule <;> rfl
@[simp] theorem State.turnTaken_req : s.turnTaken.req = s.req := by
  unfold State.turnTaken; cases s.schedule <;> rfl
@[simp] theorem State.turnTaken_q : s.turnTaken.q = s.q := by
  unfold State.turnTaken; cases s.schedule <;> rfl
@[simp] theorem State.turnTaken_clr : s.turnTaken.clr = s.clr := by
  unfold State.turnTaken; cases s.schedule <;> rfl
@[simp] theorem State.turnTaken_faults : s.turnTaken.faults = s.faults := by
  unfold State.turnTaken; cases s.schedule <;> rfl
@[simp] theorem State.turnTaken_refused : s.turnTaken.refused = s.refused := by
  unfold State.turnTaken; cases s.schedule <;> rfl
@[simp] theorem State.turnTaken_passes : s.turnTaken.passes = s.passes := by
  unfold State.turnTaken; cases s.schedule <;> rfl
@[simp] theorem State.turnTaken_streamed : s.turnTaken.streamed = s.streamed := by
  unfold State.turnTaken; cases s.schedule <;> rfl
@[simp] theorem State.turnTaken_out : s.turnTaken.out = s.out := by
  unfold State.turnTaken; cases s.schedule <;> rfl
@[simp] theorem State.turnTaken_results : s.turnTaken.results = s.results := by
  unfold State.turnTaken; cases s.schedule <;> rfl
@[simp] theorem State.turnTaken_program : s.turnTaken.program = s.program := by
  unfold State.turnTaken; cases s.schedule <;> rfl

@[simp] theorem State.resetWith_params (p : Params) : (State.resetWith p).params = p := rfl
@[simp] theorem State.resetWith_unitA (p : Params) : (State.resetWith p).unitA = Config.unitA := rfl
@[simp] theorem State.resetWith_unitB (p : Params) : (State.resetWith p).unitB = Config.unitB p.fbBase := rfl
@[simp] theorem State.resetWith_mem (p : Params) : (State.resetWith p).mem = [] := rfl
@[simp] theorem State.resetWith_pstate (p : Params) : (State.resetWith p).pstate = .armedIdle := rfl
@[simp] theorem State.resetWith_readAddress (p : Params) : (State.resetWith p).readAddress = p.fbBase := rfl
@[simp] theorem State.resetWith_remaining (p : Params) : (State.resetWith p).remaining = BitVec.ofNat 32 Config.totalBytes := rfl
@[simp] theorem State.resetWith_req (p : Params) : (State.resetWith p).req = 0 := rfl
@[simp] theorem State.resetWith_q (p : Params) : (State.resetWith p).q = [] := rfl
@[simp] theorem State.resetWith_clr (p : Params) : (State.resetWith p).clr = none := rfl
@[simp] theorem State.resetWith_faults (p : Params) : (State.resetWith p).faults = FaultSet.empty := rfl
@[simp] theorem State.resetWith_refused (p : Params) : (State.resetWith p).refused = false := rfl
@[simp] theorem State.resetWith_passes (p : Params) : (State.resetWith p).passes = 0 := rfl
@[simp] theorem State.resetWith_streamed (p : Params) : (State.resetWith p).streamed = 0 := rfl
@[simp] theorem State.resetWith_out (p : Params) : (State.resetWith p).out = [] := rfl
@[simp] theorem State.resetWith_results (p : Params) : (State.resetWith p).results = [] := rfl
@[simp] theorem State.resetWith_program (p : Params) : (State.resetWith p).program = [] := rfl
@[simp] theorem State.resetWith_schedule (p : Params) : (State.resetWith p).schedule = [] := rfl
@[simp] theorem State.resetWith_draws (p : Params) : (State.resetWith p).draws = 0 := rfl

end Sys2Proof.Machine
end

