-- ==== Sys2Proof/Laws/Memory.lean ====
section
/-! SUPPORT. The laws of the byte memory: read after write, the canonical form, and what `memRead` and
`memWrite` can answer. -/

namespace Sys2Proof.Machine

/-- The number of R7. Not a simp lemma: rewriting it inside a decided condition changes the condition's
instance. -/
theorem totalBytes_eq : Config.totalBytes = 153600 := rfl

@[simp] theorem Memory.lookup_write_same (m : Memory) (a : Nat) (v : Byte) :
    Memory.lookup (Memory.write m a v) a = some v := by
  induction m with
  | nil => simp [Memory.write, Memory.lookup]
  | cons c rest ih =>
    obtain ⟨b, w⟩ := c
    by_cases h1 : a < b
    · simp [Memory.write, Memory.lookup, h1]
    · by_cases h2 : a = b <;> simp [Memory.write, Memory.lookup, h1, h2, ih]

theorem Memory.lookup_write_other (m : Memory) {a b : Nat} (v : Byte) (h : b ≠ a) :
    Memory.lookup (Memory.write m a v) b = Memory.lookup m b := by
  induction m with
  | nil => simp [Memory.write, Memory.lookup, h]
  | cons c rest ih =>
    obtain ⟨d, w⟩ := c
    by_cases h1 : a < d
    · simp [Memory.write, Memory.lookup, h1, h]
    · by_cases h2 : a = d
      · subst h2; simp [Memory.write, Memory.lookup, h]
      · simp [Memory.write, Memory.lookup, h1, h2, ih]

/-- What an entry of a written memory is. -/
theorem Memory.mem_write {m : Memory} {a : Nat} {v : Byte} {c : Host.Cell}
    (h : c ∈ Memory.write m a v) : c = (a, v) ∨ c ∈ m := by
  induction m with
  | nil => simpa [Memory.write] using h
  | cons d rest ih =>
    obtain ⟨b, w⟩ := d
    by_cases h1 : a < b
    · simpa [Memory.write, h1] using h
    · by_cases h2 : a = b
      · subst h2
        simp only [Memory.write, h1, if_true, if_false, List.mem_cons] at h
        rcases h with h | h
        · exact .inl h
        · right; simp [h]
      · simp only [Memory.write, h1, h2, if_false, List.mem_cons] at h
        rcases h with h | h
        · right; simp [h]
        · rcases ih h with h | h
          · exact .inl h
          · right; simp [h]

/-- A write keeps the canonical form. -/
theorem Memory.write_wf {m : Memory} (a : Nat) (v : Byte) (h : Memory.wf m) :
    Memory.wf (Memory.write m a v) := by
  induction m with
  | nil => simp [Memory.write, Memory.wf]
  | cons d rest ih =>
    obtain ⟨b, w⟩ := d
    obtain ⟨hb, hr⟩ := List.pairwise_cons.mp h
    by_cases h1 : a < b
    · simp only [Memory.write, h1, if_true]
      refine List.pairwise_cons.mpr ⟨?_, h⟩
      intro c hc
      rcases List.mem_cons.mp hc with rfl | hc
      · exact h1
      · exact h1.trans (hb c hc)
    · by_cases h2 : a = b
      · subst h2
        simp only [Memory.write, h1, if_true, if_false]
        exact List.pairwise_cons.mpr ⟨hb, hr⟩
      · simp only [Memory.write, h1, h2, if_false]
        refine List.pairwise_cons.mpr ⟨?_, ih hr⟩
        intro c hc
        rcases Memory.mem_write hc with rfl | hc
        · show b < a; omega
        · exact hb c hc

/-- Reset's memory is canonical. -/
theorem Memory.reset_wf (p : Params) : Memory.wf (State.resetWith p).mem := by
  simp [Memory.wf]

/-- An address below every listed one is not listed. -/
theorem Memory.lookup_none_of_lt {m : Memory} {a : Nat} (h : ∀ c ∈ m, a < c.1) :
    Memory.lookup m a = none := by
  induction m with
  | nil => rfl
  | cons d rest ih =>
    obtain ⟨b, w⟩ := d
    have hb : a < b := h (b, w) (by simp)
    have : a ≠ b := by omega
    simp only [Memory.lookup, this, if_false]
    exact ih fun c hc => h c (by simp [hc])

/-- Canonical memories with the same bytes written are the same data. -/
theorem Memory.ext {m n : Memory} (hm : Memory.wf m) (hn : Memory.wf n)
    (h : ∀ a, Memory.lookup m a = Memory.lookup n a) : m = n := by
  induction m generalizing n with
  | nil =>
    cases n with
    | nil => rfl
    | cons d rest => have := h d.1; simp [Memory.lookup] at this
  | cons c r ih =>
    obtain ⟨a, v⟩ := c
    obtain ⟨ha, hr⟩ := List.pairwise_cons.mp hm
    cases n with
    | nil => have := h a; simp [Memory.lookup] at this
    | cons d r' =>
      obtain ⟨b, w⟩ := d
      obtain ⟨hb, hr'⟩ := List.pairwise_cons.mp hn
      have hab : a = b := by
        rcases Nat.lt_trichotomy a b with hlt | heq | hgt
        · have h1 := h a
          have h2 := Memory.lookup_none_of_lt (m := (b, w) :: r') (a := a) (by
            intro c hc
            rcases List.mem_cons.mp hc with rfl | hc
            · exact hlt
            · exact hlt.trans (hb c hc))
          rw [h2] at h1; simp [Memory.lookup] at h1
        · exact heq
        · have h1 := h b
          have h2 := Memory.lookup_none_of_lt (m := (a, v) :: r) (a := b) (by
            intro c hc
            rcases List.mem_cons.mp hc with rfl | hc
            · exact hgt
            · exact hgt.trans (ha c hc))
          rw [h2] at h1; simp [Memory.lookup] at h1
      subst hab
      have hv : v = w := by have := h a; simpa [Memory.lookup] using this
      subst hv
      congr 1
      refine ih hr hr' fun x => ?_
      by_cases hx : x = a
      · subst hx
        rw [Memory.lookup_none_of_lt ha, Memory.lookup_none_of_lt hb]
      · have := h x
        simpa [Memory.lookup, hx] using this

@[simp] theorem State.byteAt_putByte_same (s : State) (a : Nat) (v : Byte) :
    (s.putByte a v).byteAt a = v := by
  simp [State.byteAt]

theorem State.byteAt_putByte_other (s : State) {a b : Nat} (v : Byte) (h : b ≠ a) :
    (s.putByte a v).byteAt b = s.byteAt b := by
  simp [State.byteAt, Memory.lookup_write_other _ v h]

@[simp] theorem State.inFramebuffer_putByte (s : State) (a : Nat) (v : Byte) (b : Nat) :
    (s.putByte a v).inFramebuffer b = s.inFramebuffer b := rfl

@[simp] theorem State.fbAddr_putByte (s : State) (a : Nat) (v : Byte) (i : Nat) :
    (s.putByte a v).fbAddr i = s.fbAddr i := rfl

/-- The later of two writes to one address stands. -/
theorem Memory.write_write_same (m : Memory) (a : Nat) (v w : Byte) :
    Memory.write (Memory.write m a v) a w = Memory.write m a w := by
  induction m with
  | nil => simp [Memory.write]
  | cons d r ih =>
    obtain ⟨b, u⟩ := d
    rcases Nat.lt_trichotomy a b with h | h | h
    · simp [Memory.write, h]
    · subst h; simp [Memory.write]
    · have h1 : ¬ a < b := by omega
      have h2 : ¬ a = b := by omega
      simp [Memory.write, h1, h2, ih]

/-- Writes to different addresses commute. -/
theorem Memory.write_comm (m : Memory) {a b : Nat} (v w : Byte) (h : a ≠ b) :
    Memory.write (Memory.write m a v) b w = Memory.write (Memory.write m b w) a v := by
  have key : ∀ (m : Memory) (a b : Nat) (v w : Byte), a < b →
      Memory.write (Memory.write m a v) b w = Memory.write (Memory.write m b w) a v := by
    intro m a b v w hab
    have h1 : ¬ b < a := by omega
    have h2 : ¬ b = a := by omega
    induction m with
    | nil => simp [Memory.write, hab, h1, h2]
    | cons d r ih =>
      obtain ⟨e, u⟩ := d
      rcases Nat.lt_trichotomy a e with he | he | he
      · rcases Nat.lt_trichotomy b e with hb | hb | hb
        · simp [Memory.write, he, hb, hab, h1, h2]
        · subst hb; simp [Memory.write, hab, h1, h2]
        · have h3 : ¬ b < e := by omega
          have h4 : ¬ b = e := by omega
          simp [Memory.write, he, h1, h2, h3, h4]
      · subst he; simp [Memory.write, h1, h2]
      · have h3 : ¬ b < e := by omega
        have h4 : ¬ b = e := by omega
        have h5 : ¬ a < e := by omega
        have h6 : ¬ a = e := by omega
        simp [Memory.write, ih, h3, h4, h5, h6]
  rcases Nat.lt_or_gt_of_ne h with hlt | hgt
  · exact key m a b v w hlt
  · exact (key m b a w v hgt).symm

/-- Different bytes of the framebuffer have different addresses. -/
theorem State.fbAddr_ne (s : State) {i j : Nat} (h : i ≠ j) : s.fbAddr i ≠ s.fbAddr j := by
  unfold State.fbAddr; omega

/-- Framebuffer byte `i` lies in the framebuffer. -/
theorem State.inFramebuffer_fbAddr (s : State) {i : Nat} (h : i < Config.totalBytes) :
    s.inFramebuffer (s.fbAddr i) = true := by
  unfold State.inFramebuffer State.fbAddr
  exact decide_eq_true ⟨Nat.le_add_right _ _, Nat.add_lt_add_left h _⟩

/-- Reset leaves every framebuffer byte its draw (R32). -/
theorem State.fb_resetWith (p : Params) (i : Nat) : (State.resetWith p).fb i = Config.resetByte i := by
  simp [State.fb, State.byteAt, State.fbAddr, Memory.lookup]

/-- `FB[i]` after a byte is stored at the address of byte `j` (R53). -/
theorem State.fb_putByte (s : State) (i j : Nat) (v : Byte) :
    (s.putByte (s.fbAddr j) v).fb i = if i = j then v else s.fb i := by
  by_cases h : i = j
  · subst h; simp [State.fb]
  · simp only [State.fb, State.fbAddr_putByte, h, if_false]
    exact State.byteAt_putByte_other s v (State.fbAddr_ne s h)

/-- A read inside the framebuffer answers the byte there. -/
theorem memRead_inside (s : State) {a : Nat} (h : s.inFramebuffer a = true) :
    memRead s a = .next (s.byteAt a) := by simp [memRead, h]

/-- A write inside the framebuffer stores the byte. -/
theorem memWrite_inside (s : State) {a : Nat} (h : s.inFramebuffer a = true) (v : Byte) :
    memWrite s a v = .next (s.putByte a v) := by simp [memWrite, h]

theorem memRead_fbAddr (s : State) {i : Nat} (h : i < Config.totalBytes) :
    memRead s (s.fbAddr i) = .next (s.fb i) := memRead_inside s (s.inFramebuffer_fbAddr h)

theorem memWrite_fbAddr (s : State) {i : Nat} (h : i < Config.totalBytes) (v : Byte) :
    memWrite s (s.fbAddr i) v = .next (s.putByte (s.fbAddr i) v) :=
  memWrite_inside s (s.inFramebuffer_fbAddr h) v

/-- All that `memRead` can answer. -/
theorem memRead_cases (s : State) (a : Nat) :
    (s.inFramebuffer a = true ∧ memRead s a = .next (s.byteAt a)) ∨
    (s.inFramebuffer a = false ∧ memRead s a = .fault .outsideFramebuffer) := by
  cases h : s.inFramebuffer a <;> simp [memRead, h]

/-- All that `memWrite` can answer. -/
theorem memWrite_cases (s : State) (a : Nat) (v : Byte) :
    (s.inFramebuffer a = true ∧ memWrite s a v = .next (s.putByte a v)) ∨
    (s.inFramebuffer a = false ∧ memWrite s a v = .fault .outsideFramebuffer) := by
  cases h : s.inFramebuffer a <;> simp [memWrite, h]

/-- A sequence answers a next state only through both of its parts. -/
theorem andThen_next {α β : Type} {r : Result α} {k : α → Result β} {t : β}
    (h : andThen r k = .next t) : ∃ a, r = .next a ∧ k a = .next t := by
  cases r with
  | next a => exact ⟨a, rfl, h⟩
  | fault f => cases h
  | refused e => cases h

@[simp] theorem andThen_of_next {α β : Type} (a : α) (k : α → Result β) :
    andThen (.next a) k = k a := rfl

end Sys2Proof.Machine
end

