-- ==== Sys2Proof/Laws/Codec.lean ====
section
/-! SUPPORT. The codec's range and the bits of a field (40_codec.md R71, R73, R84; 20_memory.md R44). -/

namespace Sys2Proof.Machine

/-- A clamped value lies in its range (R12, R72). -/
theorem clamp_range {v lo hi : Int} (h : lo ≤ hi) : lo ≤ clamp v lo hi ∧ clamp v lo hi ≤ hi := by
  unfold clamp; split
  · omega
  · split <;> omega

/-- `linear` of the clamped coordinates is on the screen (R73). -/
theorem linearOf_lt (x y : Coord) : linearOf x y < Config.width * Config.height := by
  have hx := clamp_range (v := x.toInt) (lo := 0) (hi := (Config.width : Int) - 1) (by decide)
  have hy := clamp_range (v := y.toInt) (lo := 0) (hi := (Config.height : Int) - 1) (by decide)
  simp only [linearOf, Config.width, Config.height] at *
  omega

/-- "The index is mathematically bounded by prior clamp" (R73). -/
theorem codec_byteIndex_lt (x y : Coord) : (codec x y).byteIndex < Config.totalBytes := by
  have h := linearOf_lt x y
  simp only [codec, Config.totalBytes, Config.width, Config.height] at *
  omega

theorem codec_nibble_lt (x y : Coord) : (codec x y).nibble < 2 := Nat.mod_lt _ (by decide)

/-- The two fields are two. -/
theorem nibble_cases {n : Nat} (h : n < 2) : n = 0 ∨ n = 1 := by omega

/-- The two samples of a byte are its two fields (R44, R95). -/
theorem samplesOf_eq_fields (b : Byte) : samplesOf b = [fieldOf b 0, fieldOf b 1] := by
  simp only [samplesOf, fieldOf, List.cons.injEq, and_true]
  constructor
  · ext k hk; simp
  · ext k hk; simp [Nat.add_comm]

/-- The bits of a field (R44). -/
theorem getLsbD_fieldOf (b : Byte) (n k : Nat) (h : k < 3) :
    (fieldOf b n).getLsbD k = b.getLsbD (3 * n + k) := by
  simp [fieldOf, h]

/-- The bits of a colour moved to its field (R84). -/
theorem getLsbD_fieldMask (c : ColourIndex) (n k : Nat) (hk : k < 8) :
    (fieldMask c n).getLsbD k = (decide (3 * n ≤ k) && c.getLsbD (k - 3 * n)) := by
  simp only [fieldMask, BitVec.getLsbD_shiftLeft, BitVec.getLsbD_setWidth]
  by_cases h : k < 3 * n
  · have : ¬ 3 * n ≤ k := by omega
    simp [h, this]
  · have h1 : 3 * n ≤ k := by omega
    have h2 : k - 3 * n < 8 := by omega
    simp [h, hk, h1, h2]

end Sys2Proof.Machine
end

