-- ==== Sys2Proof/Laws/Decode.lean ====
section
/-! SUPPORT. The number an operand word's bytes make (30_encoding.md R61, log 5), and `decode` by its code
word (R63). -/

namespace Sys2Proof

/-- The word of four bytes, as a number. -/
theorem wordOfBytes_toNat (b3 b2 b1 b0 : Byte) :
    (wordOfBytes b3 b2 b1 b0).toNat =
      ((b3.toNat * 256 + b2.toNat) * 256 + b1.toNat) * 256 + b0.toNat := by
  simp only [wordOfBytes, BitVec.toNat_append]
  rw [← Nat.shiftLeft_add_eq_or_of_lt b2.isLt, ← Nat.shiftLeft_add_eq_or_of_lt b1.isLt,
    ← Nat.shiftLeft_add_eq_or_of_lt b0.isLt]
  simp only [Nat.shiftLeft_eq]

/-- `decode` of a stream that begins with this code word. -/
theorem decode_cons (w : Byte) (rest : List Byte) :
    decode (w :: rest) =
      match readCodeWord w with
      | none => .error .reservedEncoding
      | some (.plain i) => .ok (i, rest)
      | some (.setPixel c) =>
        match takeOperands rest with
        | some (x, y, rest') => .ok (.setPixel x y c, rest')
        | none => .error .incomplete
      | some .getPixel =>
        match takeOperands rest with
        | some (x, y, rest') => .ok (.getPixel x y, rest')
        | none => .error .incomplete := rfl

end Sys2Proof
end

