-- ==== Sys2Proof/Laws/Exec.lean ====
section
/-! SUPPORT. What each meaning can answer, once for each: proofs about next states start from these. -/

namespace Sys2Proof.Machine

/-- Unit A's condition, spelled out (R89). -/
theorem State.streamEnabled_iff (s : State) : s.streamEnabled = true ↔
    s.pstate = .streaming ∧ 0 < s.req ∧ s.q.length < s.params.queueDepth := by
  simp [State.streamEnabled]

/-- The port is free where no clear is in progress (R80). -/
theorem State.portFree_iff (s : State) : s.portFree = true ↔ s.clr = none := by
  simp [State.portFree]

/-- The count that reaches zero is one (R89). -/
theorem count_sub_one_eq_zero (r : Count) : r - 1 = 0 ↔ r = 1 := by
  constructor
  · intro h
    have := congrArg (· + 1) h
    simpa using this
  · rintro rfl; rfl

theorem execSetPixel_next {x y : Coord} {c : ColourIndex} {s t : State} (h : execSetPixel x y c s = .next t) :
    (s.portFree = false ∧ t = s) ∨
    (s.portFree = true ∧ t = s.putByte (s.fbAddr (codec x y).byteIndex)
      (s.fb (codec x y).byteIndex ||| fieldMask c (codec x y).nibble)) := by
  have hi := codec_byteIndex_lt x y
  unfold execSetPixel at h
  cases hp : s.portFree <;> simp only [hp, if_true, Bool.false_eq_true, if_false] at h
  · cases h; exact .inl ⟨rfl, rfl⟩
  · rw [memRead_fbAddr s hi, andThen_of_next, memWrite_fbAddr s hi] at h
    cases h; exact .inr ⟨rfl, rfl⟩

theorem execClear_next {s t : State} (h : execClear s = .next t) :
    (s.portFree = false ∧ t = s) ∨ (s.portFree = true ∧ t = { s with clr := some 0 }) := by
  unfold execClear at h
  cases hp : s.portFree <;> simp only [hp, if_true, Bool.false_eq_true, if_false] at h <;> cases h
  · exact .inl ⟨rfl, rfl⟩
  · exact .inr ⟨rfl, rfl⟩

theorem execGetPixel_next {x y : Coord} {s t : State} (h : execGetPixel x y s = .next t) :
    (s.portFree = false ∧ t = s) ∨
    (s.portFree = true ∧ t = { s with
      results := s.results ++ [fieldOf (s.fb (codec x y).byteIndex) (codec x y).nibble] }) := by
  unfold execGetPixel at h
  cases hp : s.portFree <;> simp only [hp, if_true, Bool.false_eq_true, if_false] at h
  · cases h; exact .inl ⟨rfl, rfl⟩
  · rw [memRead_fbAddr s (codec_byteIndex_lt x y), andThen_of_next] at h
    cases h; exact .inr ⟨rfl, rfl⟩

theorem execClearStep_next {s t : State} (h : execClearStep s = .next t) :
    (s.clr = none ∧ t = s) ∨
    ∃ k, s.clr = some k ∧ s.inFramebuffer (s.fbAddr k) = true ∧ t = { s.putByte (s.fbAddr k) 0 with
      clr := if k + 1 = Config.totalBytes then none else some (k + 1) } := by
  unfold execClearStep at h
  cases hc : s.clr with
  | none => rw [hc] at h; cases h; exact .inl ⟨rfl, rfl⟩
  | some k =>
    rw [hc] at h
    obtain ⟨u, hu, h⟩ := andThen_next h
    rcases memWrite_cases s (s.fbAddr k) 0 with ⟨hi, e⟩ | ⟨_, e⟩ <;> rw [e] at hu <;> cases hu
    cases h; exact .inr ⟨k, rfl, hi, rfl⟩

theorem execStart_next {s t : State} (h : execStart s = .next t) :
    (s.portFree = false ∧ t = s) ∨
    (s.portFree = true ∧ s.pstate = .armedIdle ∧ t = { s with pstate := .streaming }) ∨
    (s.portFree = true ∧ s.pstate ≠ .armedIdle ∧ t = s.refuse .startNotIdle) := by
  unfold execStart at h
  cases hp : s.portFree <;> simp only [hp, if_true, Bool.false_eq_true, if_false] at h
  · cases h; exact .inl ⟨rfl, rfl⟩
  · split at h <;> rename_i ha <;> cases h
    · exact .inr (.inl ⟨rfl, ha, rfl⟩)
    · exact .inr (.inr ⟨rfl, ha, rfl⟩)

theorem execPacerReq_next {s t : State} (h : execPacerReq s = .next t) :
    (s.pstate = .armedIdle ∧ t = s.raise .frameMisalign) ∨
    (s.pstate ≠ .armedIdle ∧ s.req = s.params.reqCreditMax ∧ t = s.raise .reqOverrun) ∨
    (s.pstate ≠ .armedIdle ∧ s.req ≠ s.params.reqCreditMax ∧ t = { s with req := s.req + 1 }) := by
  unfold execPacerReq State.pacerFault at h
  by_cases ha : s.pstate = .armedIdle
  · simp only [ha, if_true] at h; cases h; exact .inl ⟨ha, rfl⟩
  · by_cases hr : s.req = s.params.reqCreditMax
    · rw [if_neg ha, if_pos hr] at h; cases h; exact .inr (.inl ⟨ha, hr, rfl⟩)
    · rw [if_neg ha, if_neg hr] at h; cases h; exact .inr (.inr ⟨ha, hr, rfl⟩)

theorem execStream_next {s t : State} (h : execStream s = .next t) :
    (s.streamEnabled = false ∧ t = s) ∨
    (s.streamEnabled = true ∧ s.inFramebuffer s.readAddress.toNat = true ∧ t = { s with
      q := s.q ++ [s.byteAt s.readAddress.toNat]
      req := s.req - 1
      readAddress := s.readAddress + 1
      remaining := s.remaining - 1
      streamed := s.streamed + 1
      pstate := if s.remaining = 1 then .requestReset else .streaming }) := by
  unfold execStream at h
  cases he : s.streamEnabled with
  | false => simp only [he, Bool.false_eq_true, if_false] at h; cases h; exact .inl ⟨rfl, rfl⟩
  | true =>
    simp only [he, if_true] at h
    rcases memRead_cases s s.readAddress.toNat with ⟨hi, e⟩ | ⟨_, e⟩ <;> rw [e] at h
    · rw [andThen_of_next] at h
      simp only [count_sub_one_eq_zero, (s.streamEnabled_iff.mp he).1] at h
      cases h; exact .inr ⟨rfl, hi, rfl⟩
    · cases h

theorem execReload_next {s t : State} (h : execReload s = .next t) :
    (s.pstate ≠ .requestReset ∧ t = s) ∨
    (s.pstate = .requestReset ∧ t = { s with
      readAddress := s.unitB.value
      remaining := s.unitA.count
      pstate := .streaming
      passes := s.passes + 1 }) := by
  unfold execReload State.reloadEnabled at h
  by_cases hp : s.pstate = .requestReset
  · simp only [hp, decide_true, if_true] at h; cases h; exact .inr ⟨hp, rfl⟩
  · simp only [hp, decide_false, Bool.false_eq_true, if_false] at h; cases h; exact .inl ⟨hp, rfl⟩

theorem execPop_next {s t : State} (h : execPop s = .next t) :
    (s.q = [] ∧ t = s.raise .starvation) ∨
    ∃ b rest, s.q = b :: rest ∧ t = { s with q := rest, out := s.out ++ samplesOf b } := by
  unfold execPop at h
  cases hq : s.q with
  | nil => rw [hq] at h; cases h; exact .inl ⟨rfl, rfl⟩
  | cons b rest => rw [hq] at h; cases h; exact .inr ⟨b, rest, rfl, rfl⟩

end Sys2Proof.Machine
end

