-- ==== Sys2Proof/Laws/PerInstr.lean ====
section
/-! SUPPORT. Statements made for every operation, one lemma per constructor (LAWS.json). -/

/-- The shape of an encoding (30_encoding.md R59, R60, R63): its length is what its code word says, the
reserved bit is 0, and an event is its code word alone. -/
def Sys2Proof.Laws.WordShape.Statement (i : Sys2Proof.Instr) : Prop :=
  (Sys2Proof.encode i).length = Sys2Proof.lengthOfCode (Sys2Proof.codeWord i) ∧
    Sys2Proof.reservedBit (Sys2Proof.codeWord i) = 0 ∧
    (i.isCommand = false → Sys2Proof.encode i = [Sys2Proof.codeWord i])

namespace Sys2Proof.Laws.WordShape

/-- The code word of `GETPIXEL`. -/
theorem getPixel_word : lengthOfCode 0b00110000 = 9 ∧ reservedBit 0b00110000 = 0 := by decide

/-- The code word of `SETPIXEL` for every colour. -/
theorem setPixel_word : ∀ c : ColourIndex,
    lengthOfCode (0b00010#5 ++ c) = 9 ∧ reservedBit (0b00010#5 ++ c) = 0 := by decide

theorem setPixel (x y : Coord) (c : ColourIndex) : Statement (.setPixel x y c) :=
  ⟨(setPixel_word c).1.symm, (setPixel_word c).2, fun h => by cases h⟩

theorem clear : Statement .clear := ⟨by decide, by decide, fun h => by cases h⟩

theorem getPixel (x y : Coord) : Statement (.getPixel x y) :=
  ⟨getPixel_word.1.symm, getPixel_word.2, fun h => by cases h⟩

theorem start : Statement .start := ⟨by decide, by decide, fun h => by cases h⟩

theorem clearStep : Statement .clearStep := ⟨by decide, by decide, fun _ => rfl⟩

theorem pacerReq : Statement .pacerReq := ⟨by decide, by decide, fun _ => rfl⟩

theorem stream : Statement .stream := ⟨by decide, by decide, fun _ => rfl⟩

theorem reload : Statement .reload := ⟨by decide, by decide, fun _ => rfl⟩

theorem pop : Statement .pop := ⟨by decide, by decide, fun _ => rfl⟩

end Sys2Proof.Laws.WordShape
end

