-- ==== Sys2Proof/Laws/Step.lean ====
section
/-! SUPPORT. What a turn and a step can be: every later proof about `step` starts from `step_cases`. -/

namespace Sys2Proof.Machine

/-- The state differs at most in whose turn it is and in what is left of the CPU program (log 5, log 6). -/
def SameMachine (s t : State) : Prop :=
  t = { s with program := t.program, schedule := t.schedule, draws := t.draws }

theorem State.turnTaken_sameMachine (s : State) : SameMachine s s.turnTaken := by
  unfold SameMachine State.turnTaken; cases s.schedule <;> rfl

/-- What a turn leaves of the state. -/
theorem fetch_sameMachine {s u : State}
    (h : (∃ i, fetch s = .run i u) ∨ fetch s = .hold u ∨ ∃ r, fetch s = .refuse r u) :
    SameMachine s u := by
  have ht := s.turnTaken_sameMachine
  have hc : ∀ v, SameMachine s v → ∀ {u}, ((∃ i, fetchCommand v = .run i u) ∨ fetchCommand v = .hold u ∨
      ∃ r, fetchCommand v = .refuse r u) → SameMachine s u := by
    intro v hv u hu
    unfold fetchCommand at hu
    by_cases hp : v.portFree
    · simp only [hp, if_true] at hu
      cases hd : decode v.program with
      | error e =>
        cases e <;> simp only [hd] at hu <;> rcases hu with ⟨_, h⟩ | h | ⟨_, h⟩ <;> cases h
        · unfold SameMachine at *; rw [hv]
        · exact hv
      | ok ir =>
        obtain ⟨i, rest⟩ := ir
        simp only [hd] at hu
        by_cases hi : i.isCommand <;> simp only [hi, if_true, if_false, Bool.false_eq_true] at hu <;>
          rcases hu with ⟨_, h⟩ | h | ⟨_, h⟩ <;> cases h <;> (unfold SameMachine at *; rw [hv])
    · simp only [hp, Bool.false_eq_true, if_false] at hu
      rcases hu with ⟨_, h⟩ | h | ⟨_, h⟩ <;> cases h
      exact hv
  unfold fetch at h
  cases ha : s.nextAgent <;> simp only [ha] at h
  · exact hc _ ht h
  all_goals rcases h with ⟨_, h⟩ | h | ⟨_, h⟩ <;> cases h; exact ht

/-- All that a step which answers a next state can be. -/
theorem step_cases {s t : State} (h : step s = .next t) :
    s.configOk = true ∧
      ((∃ i u, fetch s = .run i u ∧ SameMachine s u ∧ exec i u = .next t) ∨
        (fetch s = .hold t ∧ SameMachine s t) ∨
        ∃ r u, fetch s = .refuse r u ∧ SameMachine s u ∧ t = u.refuse r) := by
  unfold step at h
  by_cases hc : s.configOk
  · refine ⟨hc, ?_⟩
    simp only [hc, if_true] at h
    cases hf : fetch s with
    | run i u =>
      rw [hf] at h
      exact .inl ⟨i, u, rfl, fetch_sameMachine (.inl ⟨i, hf⟩), h⟩
    | hold u =>
      rw [hf] at h
      cases h
      exact .inr (.inl ⟨rfl, fetch_sameMachine (.inr (.inl hf))⟩)
    | refuse r u =>
      rw [hf] at h
      cases h
      exact .inr (.inr ⟨r, u, rfl, fetch_sameMachine (.inr (.inr ⟨r, hf⟩)), rfl⟩)
  · simp [hc] at h

end Sys2Proof.Machine
end

