-- ==== Sys2Proof/Laws/Trace.lean ====
section
/-! SUPPORT. Runs one turn at a time: what the first turn contributes to a run, its steps and its premises, and
what the premise `FrameAligned` says of every request. -/

namespace Sys2Proof.Machine

variable {s t : State}

theorem runFor_succ (n : Nat) (h : step s = .next t) : runFor (n + 1) s = runFor n t := by
  simp only [runFor, h, andThen_of_next]

theorem takenOf_succ (n : Nat) (h : step s = .next t) : takenOf (n + 1) s = s.taken.toList ++ takenOf n t := by
  simp only [takenOf, h]

theorem everyTaken_succ {P : State → Instr → Prop} (n : Nat) (h : step s = .next t) :
    EveryTaken P (n + 1) s ↔ (∀ i, s.taken = some (.operation i) → P s i) ∧ EveryTaken P n t := by
  refine and_congr_right fun _ => ⟨fun f => f t h, fun f u hu => ?_⟩
  rw [h] at hu; cases hu; exact f

/-- A turn with a next state counts the operation if it takes it. -/
theorem timesTaken_succ (i : Instr) (n : Nat) (h : step s = .next t) :
    timesTaken i (n + 1) s = (if s.taken = some (.operation i) then 1 else 0) + timesTaken i n t := by
  unfold timesTaken
  rw [takenOf_succ n h, List.count_append]
  cases ht : s.taken with
  | none => simp
  | some x => by_cases hx : x = .operation i <;> simp [hx]

/-- The step of a turn, by what the turn comes to. -/
theorem taken_of_step (h : step s = .next t) : s.taken =
    match fetch s with
    | .run i u => if u.enabled i then some (.operation i) else none
    | .hold _ => none
    | .refuse _ _ => s.program.head?.map .refusedWord := by
  rw [State.taken, h] <;> rfl

/-- The place in the video of every request, where the frames are aligned (R122). -/
theorem FrameAligned.eq_div_mod {n : Nat} {pacer : Nat → FrameRequest} (hn : 0 < n) (h : FrameAligned n pacer)
    (k : Nat) : pacer k = ⟨k / n, k % n⟩ := by
  induction k with
  | zero => simpa using h.1
  | succ k ih =>
    have hk := Nat.mod_lt k hn
    have hd := Nat.div_add_mod k n
    rw [h.2 k, ih]
    dsimp only
    split <;> rename_i he
    · have e : k + 1 = n * (k / n + 1) := by rw [Nat.mul_add, Nat.mul_one]; omega
      rw [e, Nat.mul_div_cancel_left _ hn, Nat.mul_mod_right]
    · have hlt : k % n + 1 < n := by omega
      have e : k + 1 = (k % n + 1) + n * (k / n) := by omega
      have ed : (k + 1) / n = k / n := by
        conv_lhs => rw [e]
        rw [Nat.add_mul_div_left _ _ hn, Nat.div_eq_of_lt hlt, Nat.zero_add]
      have em : (k + 1) % n = k % n + 1 := by
        conv_lhs => rw [e]
        rw [Nat.add_mul_mod_self_left, Nat.mod_eq_of_lt hlt]
      simp only [ed, em]

end Sys2Proof.Machine
end

