-- ==== Sys2Proof/Tests/Slice0.lean ====
section
/-! SUPPORT. The model's own tests. Expected values are those of spec/95_test_vectors.md (V-..., W..., P...)
or of the rule named; `test_witness_<Name>` shows a state and operands that meet all hypotheses of the
obligation of that name. -/

namespace Sys2Proof.Tests

open Sys2Proof Sys2Proof.Machine

/-- The next state, if there is one. -/
def nextOf (r : Result State) : Option State :=
  match r with
  | .next t => some t
  | .fault _ => none
  | .refused _ => none

/-- A state with these framebuffer bytes written, at the base 0. -/
def holding (m : Memory) : State := { State.reset with mem := m }

/-- `STREAMING` at byte `i` of a pass, with one request pending. -/
def streamingAt (i : Nat) (m : Memory) : State :=
  { holding m with
    pstate := .streaming, req := 1, readAddress := BitVec.ofNat 32 i
    remaining := BitVec.ofNat 32 (153600 - i), streamed := i }

/-- `REQUEST_RESET` after the first pass, as V-RELOAD 1 has it. -/
def exhausted : State :=
  { State.reset with
    pstate := .requestReset, readAddress := 153600, remaining := 0, req := 2, q := [0x30], streamed := 153600 }

/-- The CPU port's turn with these bytes as its program. -/
def atPort (bytes : List Byte) : State := { State.reset with program := bytes, schedule := [.cpuPort] }

/-! ### Ill-formed terms are refused -/

theorem test_wf_x_out_of_range : (Line.setPixel 2147483648 0 0).wf = false := by decide
theorem test_wf_y_out_of_range : (Line.getPixel 0 (-2147483649)).wf = false := by decide
theorem test_wf_colour_out_of_range : (Line.setPixel 0 0 8).wf = false := by decide
theorem test_wf_line : (Line.setPixel (-2147483648) 2147483647 7).wf = true := by decide
theorem test_wf_base_wraps : ({ Config.params with fbBase := 0xFFFDA801 } : Params).wf = false := by decide
theorem test_wf_base_at_top : ({ Config.params with fbBase := 0xFFFDA800 } : Params).wf = true := by decide
theorem test_wf_no_queue : ({ Config.params with queueDepth := 0 } : Params).wf = false := by decide
theorem test_wf_no_credit : ({ Config.params with reqCreditMax := 0 } : Params).wf = false := by decide
theorem test_wf_other_mode : ({ Config.params with vActiveLines := 240 } : Params).wf = false := by decide
theorem test_wf_width : Config.widthOk = true := by decide
theorem test_config_other_count :
    ({ State.reset with unitA := { Config.unitA with count := 1 } } : State).configOk = false := by decide
theorem test_config_other_value :
    ({ State.reset with unitB := { Config.unitB 0 with value := 1 } } : State).configOk = false := by decide

/-! ### Encoding -/

/-- R62, V-DECODE 1: `0001_0111`, then two operand words; the example of R68. -/
theorem test_decode_setpixel :
    decode [0b00010011, 0x00, 0x00, 0x02, 0xBC, 0xFF, 0xFF, 0xFF, 0xFB, 0x20] =
      .ok (.setPixel 700 (-5) 3, [0x20]) := by rfl
theorem test_decode_clear : decode [0b00100000] = .ok (.clear, []) := by rfl
theorem test_decode_getpixel :
    decode [0b00110000, 0x00, 0x00, 0x02, 0x7F, 0x00, 0x00, 0x00, 0x01] = .ok (.getPixel 639 1, []) := by rfl
theorem test_decode_start : decode [0b01000000] = .ok (.start, []) := by rfl
theorem test_decode_clear_step : decode [0b01010000] = .ok (.clearStep, []) := by rfl
theorem test_decode_pacer_req : decode [0b10000000] = .ok (.pacerReq, []) := by rfl
theorem test_decode_stream : decode [0b10010000] = .ok (.stream, []) := by rfl
theorem test_decode_reload : decode [0b10100000] = .ok (.reload, []) := by rfl
theorem test_decode_pop : decode [0b10110000] = .ok (.pop, []) := by rfl
/-- V-DECODE 3, 5, 9, 10, 12, 13: reserved words. -/
theorem test_decode_reserved :
    ([0x18, 0x21, 0x00, 0x60, 0x70, 0xC0, 0xD0, 0xE0, 0xF0, 0x98, 0xA1] : List Byte).all
      (fun w => decide (decode [w] = .error .reservedEncoding)) = true := by decide
theorem test_decode_incomplete : decode [0x17, 0x00, 0x00] = .error .incomplete := by rfl
/-- R24, R26, R101: the encodings of `pstate` and of the fault kinds. -/
theorem test_codes :
    [PState.armedIdle, .streaming, .requestReset].map PState.code = [0b00, 0b01, 0b10] ∧
    [FaultKind.starvation, .reqOverrun, .frameMisalign].map FaultKind.code = [1, 2, 3] ∧
    Config.nColors = 2 ^ 3 := by decide
/-- P1's program text. -/
theorem test_assemble_p1 :
    (assembleLines ["; P1".toList, "CLEAR".toList, "SETPIXEL 0, 0, WHITE ; 17".toList,
      "setpixel 1, 0x0, red".toList, "GETPIXEL 1, 0".toList]).map (fun is => is.map encodedForm) =
    .ok ["20".toList, "17 00000000 00000000".toList, "11 00000001 00000000".toList,
      "30 00000001 00000000".toList] := by decide +kernel
theorem test_assemble_refuses :
    assembleLines ["SETPIXEL 0, 0, 8".toList] = .error .literalOutOfRange ∧
    assembleLines ["STREAM".toList] = .error .malformed := by decide +kernel
/-- R59, P5: the trace has the request that faults and the word refused, and no turn that holds. -/
theorem test_trace :
    traceOf 3 { atPort [0x18] with schedule := [.unitA, .pacer, .cpuPort] } = [0x80, 0x18] := by decide
/-- R68: events by mnemonic alone, commands in their encoded form. -/
theorem test_trace_text :
    [Taken.operation .pacerReq, .operation (.setPixel 700 (-5) 3), .refusedWord 0x18].map Taken.text =
      ["PACER_REQ".toList, "13 000002BC FFFFFFFB".toList, "18".toList] := by decide +kernel

/-! ### The first step after reset runs the word placed (host interface) -/

theorem test_first_step_runs :
    [0x10, 0x17, 0x20, 0x30, 0x40, 0x50, 0x80, 0x90, 0xA0, 0xB0].all
      (fun w => (nextOf (step (State.reset.withFetchWord 8 w))).isSome) = true := by decide +kernel
theorem test_first_step_start :
    (nextOf (step (State.reset.withFetchWord 8 0x40))).map (fun t => (t.pstate, t.program, t.schedule)) =
      some (.streaming, [], []) := by decide

/-! ### Meanings -/

/-- V-CODEC 4, 8, 13, 14, 16. -/
theorem test_codec :
    codec 639 0 = ⟨319, 1⟩ ∧ codec 320 240 = ⟨76960, 0⟩ ∧ codec 700 (-5) = ⟨319, 1⟩ ∧
    codec 700 3 = ⟨1279, 1⟩ ∧ codec 0x80000000 0x7FFFFFFF = ⟨153280, 0⟩ := by decide
/-- V-SETPIXEL 8: bits 7..6 stay. -/
theorem test_setpixel_keeps_top_bits :
    (nextOf (exec (.setPixel 1 0 7) (holding [(0, 0xC0)]))).map (·.mem) = some [(0, 0xF8)] := by decide
/-- V-SETPIXEL 10. -/
theorem test_setpixel_accumulates :
    (nextOf (exec (.setPixel 1 0 3) (holding [(0, 0x12)]))).map (·.mem) = some [(0, 0x1A)] := by decide
/-- V-CLEAR 1, 5. -/
theorem test_clear_starts : (nextOf (exec .clear State.reset)).map (·.clr) = some (some 0) := by decide
theorem test_clear_waits :
    nextOf (exec .clear { State.reset with clr := some 7 }) = some { State.reset with clr := some 7 } := by decide
/-- V-CLEAR 2, 4. -/
theorem test_clear_step_first :
    (nextOf (exec .clearStep { holding [(0, 0xFF)] with clr := some 0 })).map (fun t => (t.mem, t.clr)) =
      some ([(0, 0x00)], some 1) := by decide
theorem test_clear_step_last :
    (nextOf (exec .clearStep { holding [(153599, 0xC0)] with clr := some 153599 })).map
      (fun t => (t.mem, t.clr)) = some ([(153599, 0x00)], none) := by decide
/-- V-GETPIXEL 2, 4. -/
theorem test_getpixel_high_field :
    (nextOf (exec (.getPixel 1 0) (holding [(0, 0x0F)]))).map (·.results) = some [1] := by decide
theorem test_getpixel_drops_top_bits :
    (nextOf (exec (.getPixel 1 0) (holding [(0, 0xF8)]))).map (·.results) = some [7] := by decide
/-- V-START 1, 2. -/
theorem test_start :
    (nextOf (exec .start State.reset)).map (fun t => (t.pstate, t.remaining)) =
      some (.streaming, 153600) := by decide
theorem test_start_refused :
    (nextOf (exec .start exhausted)).map (fun t => (t.pstate, t.refused)) =
      some (.requestReset, true) := by decide
/-- V-PACER_REQ 1, 4. -/
theorem test_pacer_before_start :
    (nextOf (exec .pacerReq State.reset)).map (fun t => (t.faults, t.req)) =
      some (⟨false, false, true⟩, 0) := by decide
theorem test_pacer_overrun :
    (nextOf (exec .pacerReq { streamingAt 0 [] with req := 2 })).map (fun t => (t.faults, t.req)) =
      some (⟨false, true, false⟩, 2) := by decide
/-- V-STREAM 4, 6. -/
theorem test_stream_last :
    (nextOf (exec .stream (streamingAt 153599 [(153599, 0x28)]))).map
      (fun t => (t.q, t.req, t.readAddress, t.remaining, t.pstate)) =
      some ([0x28], 0, 153600, 0, .requestReset) := by decide
theorem test_stream_top_bits :
    (nextOf (exec .stream (streamingAt 5 [(5, 0xC3)]))).map
      (fun t => (t.q, t.readAddress, t.remaining, t.pstate)) =
      some ([0xC3], 6, 153594, .streaming) := by decide
/-- V-RELOAD 1, 2. -/
theorem test_reload :
    (nextOf (exec .reload exhausted)).map
      (fun t => (t.pstate, t.readAddress, t.remaining, t.req)) = some (.streaming, 0, 153600, 2) ∧
    (nextOf (exec .reload exhausted)).map (fun t => (t.q, t.passes)) = some ([0x30], 1) := by decide
theorem test_reload_holds : nextOf (exec .reload State.reset) = some State.reset := by decide
/-- V-POP 3, 1. -/
theorem test_pop :
    (nextOf (exec .pop { State.reset with q := [0x28, 0x07] })).map (fun t => (t.q, t.out)) =
      some ([0x07], [0, 5]) := by decide
theorem test_pop_starves :
    (nextOf (exec .pop State.reset)).map (fun t => (t.faults, t.out)) =
      some (⟨true, false, false⟩, []) := by decide
/-- R95: yellow drives red and green; on the pins the parameters name. -/
theorem test_pin_levels : pinLevels ⟨8, 9, 10, 11, 12⟩ 3 = [(8, true), (9, true), (10, false)] := by decide
/-- P5, step 5: a reserved word at the port. -/
theorem test_port_refuses_reserved :
    (nextOf (step (atPort [0x18]))).map (fun t => (t.refused, t.program)) = some (true, []) := by decide
/-- V-DECODE 11: an event word at the port. -/
theorem test_port_refuses_event :
    (nextOf (step (atPort [0x90]))).map (fun t => (t.refused, t.program)) = some (true, []) := by decide

/-! ### Witnesses of the obligations' hypotheses -/

theorem test_witness_ResetBytesAreFree : 0 < Config.totalBytes ∧ 153599 < Config.totalBytes := by decide
theorem test_witness_ResetMeetsInvariant : Config.params.wf = true := by decide
theorem test_witness_BadConfigurationRefused :
    let s : State := { State.reset with params := { Config.params with hPairs := 319 } }
    s.params.hPairs * s.params.vActiveLines ≠ Config.totalBytes := by decide
theorem test_witness_TurnFollowsSchedule :
    (atPort []).schedule = .cpuPort :: [] ∧ State.reset.schedule = [] := by decide
theorem test_witness_StepRunsDecodedCommand :
    (atPort [0x20]).configOk = true ∧ (atPort [0x20]).nextAgent = .cpuPort ∧ (atPort [0x20]).clr = none ∧
      decode (atPort [0x20]).program = .ok (.clear, []) ∧ Instr.clear.isCommand = true :=
  ⟨by decide, rfl, rfl, rfl, rfl⟩
theorem test_witness_StepRunsScheduledEvent :
    let s : State := { State.reset with schedule := [.unitA] }
    s.configOk = true ∧ Instr.stream.isCommand = false ∧ s.nextAgent = Instr.stream.agent := by decide
theorem test_witness_CommandsWaitForClear :
    let s : State := { atPort [0x20] with clr := some 153599 }
    Instr.start.isCommand = true ∧ s.clr ≠ none ∧ s.configOk = true ∧ s.nextAgent = .cpuPort := by decide
theorem test_witness_DisabledAgentHolds :
    State.reset.pstate ≠ .streaming ∧ ({ streamingAt 0 [] with req := 0 } : State).req = 0 ∧
      ({ streamingAt 0 [] with q := [1, 2] } : State).params.queueDepth ≤ [1, 2].length ∧
      State.reset.pstate ≠ .requestReset ∧ State.reset.clr = none ∧
      ({ State.reset with clr := some 0 } : State).clr ≠ none := by decide
theorem test_witness_EncodeOfDecode : decode [0x20, 0x40] = .ok (.clear, [0x40]) := by rfl
theorem test_witness_ReservedWordRefused :
    (atPort [0xFF]).configOk = true ∧ (atPort [0xFF]).nextAgent = .cpuPort ∧ (atPort [0xFF]).clr = none ∧
      (atPort [0xFF]).program = 0xFF :: [] ∧ IsReservedWord 0xFF ∧ IsReservedWord 0x00 := by decide
theorem test_witness_EventWordRefused :
    (atPort [0x90]).configOk = true ∧ (atPort [0x90]).nextAgent = .cpuPort ∧ (atPort [0x90]).clr = none ∧
      decode (atPort [0x90]).program = .ok (.stream, []) ∧ Instr.stream.isCommand = false ∧
      fetch (atPort [0x20]) = .run .clear { atPort [] with schedule := [] } ∧
      State.reset.enabled .stream = false :=
  ⟨by decide, rfl, rfl, rfl, rfl, rfl, by decide⟩
/-- The edges of the ranges: the literals here are in range, and one more in any of them is not. -/
theorem test_witness_LinesAssembleInRange :
    (Line.setPixel (-2147483648) 2147483647 7).assemble = some (.setPixel 0x80000000 0x7FFFFFFF 7) ∧
      (Line.getPixel 2147483647 (-2147483648)).assemble = some (.getPixel 0x7FFFFFFF 0x80000000) ∧
      (Line.setPixel 0 0 (-1)).assemble = none ∧ (Line.getPixel 2147483648 0).assemble = none := by decide
theorem test_witness_OffScreenWritesNearestEdge :
    (639 : Coord).toInt =
      (if (640 : Coord).toInt < 0 then 0 else if 639 < (640 : Coord).toInt then 639 else (640 : Coord).toInt) ∧
    (0 : Coord).toInt =
      (if (-1 : Coord).toInt < 0 then 0 else if 479 < (-1 : Coord).toInt then 479 else (-1 : Coord).toInt) := by
  decide
theorem test_witness_ByteHoldsTwoPixels :
    (639 : Coord).toNat < 640 ∧ (479 : Coord).toNat < 480 ∧ 153599 < Config.totalBytes ∧ 1 < 2 ∧
      codec 639 479 = ⟨153599, 1⟩ := by decide
theorem test_witness_RowOfThreeHundredTwentyBytes : 319 < 320 ∧ 479 < 480 := by decide
/-- `clr = none`: the hypothesis of `SetPixelOrsOneField`, `GetPixelReadsField`, `GetPixelAfterSetPixel`,
`ClearZeroesFramebuffer` and, with its two cases, `StartEnablesOrRefuses`. -/
theorem test_witness_SetPixelOrsOneField : (holding [(0, 0x0F)]).clr = none := by rfl
theorem test_witness_GetPixelReadsField : (holding [(0, 0x0F)]).clr = none := by rfl
theorem test_witness_GetPixelAfterSetPixel :
    (holding [(0, 0x00)]).clr = none ∧ (holding [(0, 0x00)]).fb (codec 0 0).byteIndex = 0 := by decide
theorem test_witness_ClearZeroesFramebuffer : exhausted.clr = none ∧ 153599 < Config.totalBytes := by decide
theorem test_witness_StartEnablesOrRefuses :
    State.reset.clr = none ∧ State.reset.pstate = .armedIdle ∧ exhausted.clr = none ∧
      exhausted.pstate ≠ .armedIdle := by decide
theorem test_witness_PixelWritesAccumulate :
    (nextOf (exec (.setPixel 0 0 7) (holding [(0, 0x08)]))).isSome = true ∧
      Instr.setPixel 0 0 7 ≠ .clearStep ∧ ((holding [(0, 0x08)]).byteAt 0).getLsbD 3 = true := by decide
theorem test_witness_SetPixelTouchesOnlyItsField :
    exec (.setPixel 0 0 7) (holding [(0, 0x08)]) = .next (holding [(0, 0x0F)]) ∧
      ¬ (0 = (codec 0 0).byteIndex ∧ 3 * (codec 0 0).nibble ≤ 3 ∧ 3 < 3 * (codec 0 0).nibble + 3) ∧
      (0, 1) ≠ ((codec 0 0).byteIndex, (codec 0 0).nibble) := ⟨rfl, by decide, by decide⟩
theorem test_witness_ClearStepZeroesOneByte :
    ({ State.reset with clr := some 153599 } : State).clr = some 153599 ∧ 153599 < Config.totalBytes ∧
      ({ State.reset with clr := some 0 } : State).clr = some 0 := by decide
theorem test_witness_PacerReqCountsOrFaults :
    State.reset.pstate = .armedIdle ∧ exhausted.pstate ≠ .armedIdle ∧
      exhausted.req = exhausted.params.reqCreditMax ∧ (streamingAt 0 []).pstate ≠ .armedIdle ∧
      (streamingAt 0 []).req ≠ (streamingAt 0 []).params.reqCreditMax := by decide
theorem test_witness_StreamMovesOneByte :
    let s := streamingAt 153599 [(153599, 0x28)]
    s.pstate = .streaming ∧ 0 < s.req ∧ s.q.length < s.params.queueDepth ∧
      s.inFramebuffer s.readAddress.toNat = true := by decide
theorem test_witness_StreamFaultsOnlyOutsideFramebuffer :
    let s : State := { streamingAt 0 [] with readAddress := 153600 }
    s.pstate = .streaming ∧ 0 < s.req ∧ s.q.length < s.params.queueDepth ∧
      s.inFramebuffer s.readAddress.toNat = false := by decide

/-- The last byte of the first pass meets the invariant. -/
theorem test_streaming_inv : (streamingAt 153599 [(153599, 0x28)]).Inv where
  config := by decide
  cursor := ⟨by decide, by decide, by decide, by decide⟩
  requests := by decide
  queue := by decide
  clearing := by decide
  canonical := by decide
  inside := by intro c hc; simp only [streamingAt, holding, List.mem_singleton] at hc; subst hc; decide

/-- The exhausted state meets the invariant. -/
theorem test_exhausted_inv : exhausted.Inv where
  config := by decide
  cursor := ⟨by decide, by decide, by decide, by decide⟩
  requests := by decide
  queue := by decide
  clearing := by decide
  canonical := by decide
  inside := by intro c hc; cases hc

/-- Reset meets the invariant, here from its own values. -/
theorem test_reset_inv : State.reset.Inv where
  config := by decide
  cursor := ⟨by decide, by decide, by decide, by decide⟩
  requests := by decide
  queue := by decide
  clearing := by decide
  canonical := by decide
  inside := by intro c hc; cases hc

theorem test_witness_PassStreamsAscending :
    let s := streamingAt 153599 [(153599, 0x28)]
    s.Inv ∧ s.PassCountOk ∧ s.enabled .stream = true ∧ (nextOf (exec .stream s)).isSome = true :=
  ⟨test_streaming_inv, by simp only [State.PassCountOk]; decide, by decide, by decide⟩
theorem test_witness_OnlyLastTransferTriggersUnitB :
    let s := streamingAt 153599 [(153599, 0x28)]
    (nextOf (exec .stream s)).map (·.pstate) = some .requestReset ∧ s.pstate ≠ .requestReset ∧
      s.enabled .stream = true ∧ s.remaining = 1 := by decide
theorem test_witness_ReloadRewindsCursor :
    exhausted.pstate = .requestReset ∧ exhausted.configOk = true := by decide
theorem test_witness_RequestsServedExactlyOnce :
    let s : State := { exhausted with req := 1 }
    s.pstate = .requestReset ∧ s.req ≠ s.params.reqCreditMax ∧ (nextOf (exec .reload s)).isSome = true ∧
      (nextOf (exec .pacerReq s)).isSome = true := by decide
theorem test_witness_PopEmitsTwoSamples :
    exhausted.q = 0x30 :: [] ∧ State.reset.q = [] := by decide
theorem test_witness_PassLaw :
    exhausted.Inv ∧ exhausted.PassCountOk ∧ exhausted.pstate = .requestReset ∧
      (nextOf (exec .reload exhausted)).isSome = true ∧
      (nextOf (step { exhausted with schedule := [.unitB] })).isSome = true :=
  ⟨test_exhausted_inv, by simp only [State.PassCountOk]; decide, by decide, by decide, by decide⟩
/-- P3's first steps are a run within one pass; the state begins a pass with an empty queue. -/
theorem test_witness_OutputLawOfOnePass :
    let s := { streamingAt 0 [(0, 0x0F)] with req := 0 }
    s.Inv ∧ s.remaining.toNat = Config.totalBytes ∧ s.q = [] ∧
      (∀ i ∈ [Instr.pacerReq, .stream, .pop],
        (∀ (x y : Coord) (c : ColourIndex), i ≠ .setPixel x y c) ∧ i ≠ .clearStep ∧ i ≠ .reload) ∧
      (nextOf (execMany [.pacerReq, .stream, .pop] s)).map (fun t => (t.q, t.out)) = some ([], [7, 1]) := by
  refine ⟨⟨by decide, ⟨by decide, by decide, by decide, by decide⟩, by decide, by decide, by decide, by decide, ?_⟩,
    by decide, by decide, ?_, by decide⟩
  · intro c hc; simp only [streamingAt, holding, List.mem_singleton] at hc; subst hc; decide
  · intro i hi
    simp only [List.mem_cons, List.not_mem_nil, or_false] at hi
    rcases hi with rfl | rfl | rfl <;> simp
theorem test_witness_TwoSamplesPerByte :
    let s : State := { State.reset with q := [0x0F], streamed := 1, schedule := [.consumer] }
    s.SampleCountOk ∧ (nextOf (step s)).isSome = true := ⟨by simp only [State.SampleCountOk]; decide, by decide⟩
theorem test_witness_PipelineIgnoresCpuPort :
    let s := streamingAt 5 [(5, 0xC3)]
    isPipeline .stream = true ∧
      SameButCpuPort s { s with clr := some 3, refused := true, results := [1], program := [0x20] } ∧
      SamePace { s with q := [1] } { s with q := [2], mem := [(5, 0x00)], clr := some 3 } ∧
      (nextOf (exec .stream s)).isSome = true := ⟨rfl, rfl, ⟨rfl, rfl, rfl⟩, by decide⟩
theorem test_witness_PipelineNeverStops :
    let s : State := { exhausted with schedule := [.unitB] }
    (nextOf (step s)).isSome = true ∧ s.pstate ≠ .armedIdle := by decide
theorem test_witness_FaultsAndMarkAreSticky :
    let s : State := { atPort [0x20] with faults := ⟨true, false, false⟩, refused := true }
    (nextOf (step s)).isSome = true ∧ s.faults.has .starvation = true ∧ s.refused = true := by decide
theorem test_witness_FaultsRaisedOnlyWhereStated :
    (nextOf (exec .pop State.reset)).map (·.faults.has .starvation) = some true ∧
      (nextOf (exec .pacerReq State.reset)).map (·.faults.has .frameMisalign) = some true ∧
      (nextOf (exec .pacerReq exhausted)).map (·.faults.has .reqOverrun) = some true ∧
      State.reset.faults.has .starvation = false := by decide
theorem test_witness_RaisingStepHasNoOtherEffect :
    (nextOf (exec .pop State.reset)).map (fun t => decide (t.faults ≠ State.reset.faults)) = some true ∧
      (nextOf (exec .start exhausted)).map (fun t => decide (t.refused ≠ exhausted.refused)) = some true := by
  decide
theorem test_witness_AgentsWriteOnlyTheirState :
    (nextOf (exec .reload exhausted)).isSome = true ∧
      (nextOf (exec (.setPixel 639 479 7) (holding []))).map (·.mem.length) = some 1 ∧
      153598 ≠ (holding []).fbAddr (codec 639 479).byteIndex ∧
      ({ holding [] with clr := some 153599 } : State).clr = some 153599 := by decide
theorem test_witness_OnlyTwoOperationsStore :
    (nextOf (exec .start State.reset)).isSome = true ∧ (∀ x y c, Instr.start ≠ .setPixel x y c) ∧
      Instr.start ≠ .clearStep := by
  refine ⟨by decide, ?_, by decide⟩
  intro x y c h; cases h
theorem test_witness_PremisesExcludeFaults :
    let s := streamingAt 0 []
    s.faults = FaultSet.empty ∧ s.NoStarvation .pacerReq ∧ s.NoOverrun .pacerReq ∧ s.BootOrder .pacerReq ∧
      (nextOf (exec .pacerReq s)).isSome = true ∧
      ({ s with q := [1] } : State).NoStarvation .pop := by
  refine ⟨rfl, ?_, ?_, ?_, by decide, ?_⟩
  · intro h; cases h
  · intro _; decide
  · intro _; decide
  · intro _; decide
theorem test_witness_PassNumberIsStreamedQuotient :
    let s := streamingAt 153599 [(153599, 0x28)]
    s.Inv ∧ s.PassCountOk ∧ s.pstate ≠ .requestReset :=
  ⟨test_streaming_inv, by simp only [State.PassCountOk]; decide, by decide⟩
theorem test_witness_SimultaneousEventsCommute :
    let s := streamingAt 153599 [(153599, 0x28)]
    s.Inv ∧ s.enabled .stream = true ∧ s.req ≠ s.params.reqCreditMax ∧
      s.clr ≠ some (Config.totalBytes - s.remaining.toNat) ∧
      ({ s with q := [1] } : State).q ≠ [] := ⟨test_streaming_inv, by decide, by decide, by decide, by decide⟩
/-- The `CLEAR_STEP` clause with a clear in progress at the byte before the one streamed. -/
theorem test_witness_SimultaneousEventsCommute_clearing :
    let s := { streamingAt 153599 [(153599, 0x28)] with clr := some 153598 }
    s.Inv ∧ s.enabled .stream = true ∧ s.enabled .clearStep = true ∧
      s.clr ≠ some (Config.totalBytes - s.remaining.toNat) :=
  ⟨{ test_streaming_inv with
      cursor := ⟨by decide, by decide, by decide, by decide⟩, clearing := by decide }, by decide, by decide, by decide⟩
theorem test_witness_CursorStaysInFramebuffer :
    exhausted.Inv ∧ exhausted.params.fbBase.toNat + Config.totalBytes < 2 ^ 32 ∧
      exhausted.pstate = .requestReset ∧ State.reset.pstate ≠ .requestReset :=
  ⟨test_exhausted_inv, by decide, by decide, by decide⟩
theorem test_witness_StepKeepsInvariant :
    State.reset.Inv ∧ (nextOf (step (State.reset.withFetchWord 8 0x40))).isSome = true :=
  ⟨test_reset_inv, by decide⟩
theorem test_witness_StepAlwaysAnswers : State.reset.Inv := test_reset_inv

/-- Memory with the first `n` bytes written zero. -/
@[irreducible] def zeros (n : Nat) : Memory := (List.range n).map fun i => (i, 0)

theorem zeros_lookup {n j : Nat} (h : j < n) : Memory.lookup (zeros n) j = some 0 := by
  have key : ∀ l : List Nat, j ∈ l → Memory.lookup (l.map fun i => (i, (0 : Byte))) j = some 0 := by
    intro l
    induction l with
    | nil => intro h; cases h
    | cons a r ih =>
      intro hm
      by_cases ha : j = a
      · simp [Memory.lookup, ha]
      · simp only [List.map_cons, Memory.lookup, if_neg ha]
        exact ih ((List.mem_cons.mp hm).resolve_left ha)
  unfold zeros
  exact key _ (List.mem_range.mpr h)

theorem zeros_wf (n : Nat) : Memory.wf (zeros n) := by
  unfold zeros
  exact List.pairwise_map.mpr List.pairwise_lt_range

theorem zeros_inside {n : Nat} (h : n ≤ Config.totalBytes) (s : State) (hs : s.mem = zeros n)
    (hb : s.params.fbBase = 0) : s.MemInside := by
  intro c hc
  rw [hs] at hc
  unfold zeros at hc
  obtain ⟨i, hi, rfl⟩ := List.mem_map.mp hc
  have hi := List.mem_range.mp hi
  unfold State.inFramebuffer
  rw [hb]
  exact decide_eq_true ⟨Nat.zero_le _, Nat.lt_of_lt_of_le hi (by simpa using h)⟩

/-- One byte before the end of a clear, the clear sequencer's turn. -/
def lastClear : State :=
  { holding (zeros 153599) with clr := some 153599, schedule := [.clearSequencer] }

theorem test_witness_ClearLeavesZeroBehind :
    lastClear.Inv ∧ lastClear.ZeroBelowClear ∧ lastClear.clr ≠ none ∧
      (nextOf (step lastClear)).map (·.clr) = some none := by
  refine ⟨⟨by decide, ⟨by decide, by decide, by decide, by decide⟩, by decide, by decide, by decide,
    zeros_wf _, zeros_inside (by decide) _ rfl rfl⟩, ?_, by decide, by decide +kernel⟩
  intro k hk j hj
  have hk : k = 153599 := (Option.mem_some.mp hk).symm
  subst hk
  have : Memory.lookup lastClear.mem (lastClear.fbAddr j) = some 0 := by
    have hj' : lastClear.fbAddr j = j := Nat.zero_add j
    rw [hj']; exact zeros_lookup hj
  unfold State.fb State.byteAt
  rw [this]; rfl

/-! ### Runs -/

theorem test_witness_TraceHoldsStepsTaken :
    let held : State := { atPort [] with schedule := [.unitA] }
    (nextOf (step held)).isSome = true ∧ held.taken = none ∧
      (nextOf (step (atPort [0x20]))).isSome = true ∧ (atPort [0x20]).taken = some (.operation .clear) ∧
      ({ atPort [] with schedule := [.pacer] } : State).taken = some (.operation .pacerReq) ∧
      (nextOf (step (atPort [0x90]))).isSome = true ∧ (atPort [0x90]).taken = some (.refusedWord 0x90) ∧
      (atPort [0x18]).taken = some (.refusedWord 0x18) := by decide

/-- `START`, then the first request of frame 0, as P3 begins. -/
def firstRequest (n : Nat) : State :=
  { atPort [0x40] with schedule := [Agent.cpuPort, .pacer].drop n }

/-- The run of `firstRequest` after its first turn. -/
def started : State := { firstRequest 1 with program := [], pstate := .streaming }

theorem test_witness_PassIsVideoFrame :
    firstRequest 0 = { State.resetWith Config.params with program := [0x40], schedule := [.cpuPort, .pacer] } ∧
      Config.params.wf = true ∧
      FrameAligned (firstRequest 0).frameRequests (fun k => ⟨k / 153600, k % 153600⟩) ∧
      EveryTaken State.NoStarvation 2 (firstRequest 0) ∧ EveryTaken State.NoOverrun 2 (firstRequest 0) ∧
      EveryTaken State.BootOrder 2 (firstRequest 0) ∧
      (nextOf (runFor 2 (firstRequest 0))).map (·.req) = some 1 := by
  have h0 : step (firstRequest 0) = .next started := by rfl
  have h1 : step started = .next { started with req := 1, schedule := [] } := by rfl
  have t0 : (firstRequest 0).taken = some (.operation .start) := by decide
  have t1 : started.taken = some (.operation .pacerReq) := by decide
  have every : ∀ P : State → Instr → Prop, P (firstRequest 0) .start → P started .pacerReq →
      EveryTaken P 2 (firstRequest 0) := by
    intro P p0 p1
    rw [everyTaken_succ 1 h0, everyTaken_succ 0 h1, t0, t1]
    exact ⟨by rintro i ⟨⟩; exact p0, by rintro i ⟨⟩; exact p1, trivial⟩
  refine ⟨rfl, by decide, ⟨rfl, fun k => ?_⟩, every _ (fun h => by cases h) (fun h => by cases h),
    every _ (fun h => by cases h) (fun _ => by decide), every _ (fun h => by cases h) (fun _ => by decide), by decide⟩
  rw [show (firstRequest 0).frameRequests = 153600 by decide]
  split <;> simp only [FrameRequest.mk.injEq] at * <;> omega

end Sys2Proof.Tests
end

/-! Whose turn it is, what an agent does whose step's condition is false, where `STREAM` stops, and the palette
(00_scope.md R13, R15, R17, R18). -/

namespace Sys2Proof.Machine

/-! ### Turns -/

theorem State.nextAgent_of_cons {s : State} {a : Agent} {rest : List Agent} (h : s.schedule = a :: rest) :
    s.nextAgent = a := by
  simp only [State.nextAgent, h]

theorem State.nextAgent_of_nil {s : State} (h : s.schedule = []) :
    s.nextAgent = Config.freeAgent s.draws := by
  simp only [State.nextAgent, h]

theorem State.turnTaken_of_cons {s : State} {a : Agent} {rest : List Agent} (h : s.schedule = a :: rest) :
    s.turnTaken = { s with schedule := rest } := by
  simp only [State.turnTaken, h]

theorem State.turnTaken_of_nil {s : State} (h : s.schedule = []) :
    s.turnTaken = { s with draws := s.draws + 1 } := by
  simp only [State.turnTaken, h]

/-- Settles O5: in both cases by what a turn is. -/
theorem turnFollowsSchedule : Obligations.TurnFollowsSchedule :=
  ⟨fun _ _ _ h => ⟨State.nextAgent_of_cons h, State.turnTaken_of_cons h⟩,
    fun _ h => ⟨State.nextAgent_of_nil h, State.turnTaken_of_nil h⟩⟩

/-- An event is the whole of its agent's turn (R65, R115). -/
theorem fetch_of_event {s : State} {i : Instr} (hi : i.isCommand = false) (ha : s.nextAgent = i.agent) :
    fetch s = .run i s.turnTaken := by
  unfold fetch
  cases i with
  | setPixel | clear | getPixel | start => cases hi
  | clearStep | pacerReq | stream | reload | pop => rw [ha]; rfl

theorem step_of_run {s t : State} {i : Instr} (hc : s.configOk = true) (hf : fetch s = .run i t) :
    step s = exec i t := by
  simp only [step, hc, hf, if_true]

/-- Settles O7: the turn fetches its agent's event, and `step` runs what is fetched. -/
theorem stepRunsScheduledEvent : Obligations.StepRunsScheduledEvent :=
  fun _ _ hc hi ha => step_of_run hc (fetch_of_event hi ha)

/-! ### Holding -/

/-- Every operation whose condition is false answers the state as it was (R13, R86; log 7). -/
theorem exec_of_disabled {s : State} {i : Instr} (h : s.enabled i = false) : exec i s = .next s := by
  cases i with
  | setPixel | clear | getPixel | start | stream | reload => exact if_neg (Bool.eq_false_iff.mp h)
  | clearStep =>
    have hc : s.clr = none := by simpa [State.enabled] using h
    simp only [exec, execClearStep, hc, hold]
  | pacerReq | pop => cases h

theorem State.streamEnabled_eq_false_iff (s : State) : s.streamEnabled = false ↔
    s.pstate ≠ .streaming ∨ s.req = 0 ∨ s.params.queueDepth ≤ s.q.length := by
  rw [Bool.eq_false_iff, Ne, s.streamEnabled_iff, not_and_or, not_and_or, Nat.not_lt, Nat.le_zero, Nat.not_lt]

theorem State.reloadEnabled_eq_false_iff (s : State) : s.reloadEnabled = false ↔ s.pstate ≠ .requestReset := by
  simp [State.reloadEnabled]

theorem State.portFree_eq_false_iff (s : State) : s.portFree = false ↔ s.clr ≠ none := by
  rw [Bool.eq_false_iff, Ne, s.portFree_iff]

/-- Settles O9: each of the conditions is that of an operation that is not enabled. -/
theorem disabledAgentHolds : Obligations.DisabledAgentHolds := by
  intro s
  refine ⟨fun h => ?_, fun h => ?_, fun h => ?_, fun h x y c => ?_⟩
  · exact exec_of_disabled (s.streamEnabled_eq_false_iff.mpr h)
  · exact exec_of_disabled (s.reloadEnabled_eq_false_iff.mpr h)
  · exact exec_of_disabled (by simp [State.enabled, h])
  · have hp : s.portFree = false := s.portFree_eq_false_iff.mpr h
    exact ⟨exec_of_disabled hp, exec_of_disabled hp, exec_of_disabled hp, exec_of_disabled hp⟩

/-! ### Where `STREAM` stops -/

@[simp] theorem andThen_of_fault {α β : Type} (f : Fault) (k : α → Result β) :
    andThen (.fault f) k = .fault f := rfl

/-- An enabled `STREAM` whose cursor is outside the framebuffer stops (R13, log 9). -/
theorem exec_stream_of_outside {s : State} (he : s.streamEnabled = true)
    (ho : s.inFramebuffer s.readAddress.toNat = false) : exec .stream s = .fault .outsideFramebuffer := by
  simp [exec, execStream, he, memRead, ho]

/-- An enabled `STREAM` whose cursor is inside the framebuffer moves one byte (R89). -/
theorem exec_stream_of_inside {s : State} (he : s.streamEnabled = true)
    (hi : s.inFramebuffer s.readAddress.toNat = true) : exec .stream s = .next { s with
      q := s.q ++ [s.byteAt s.readAddress.toNat]
      req := s.req - 1
      readAddress := s.readAddress + 1
      remaining := s.remaining - 1
      streamed := s.streamed + 1
      pstate := if s.remaining = 1 then .requestReset else .streaming } := by
  obtain ⟨hs, -⟩ := s.streamEnabled_iff.mp he
  simp only [exec, execStream, he, if_true, memRead_inside s hi, andThen_of_next, count_sub_one_eq_zero, hs]

theorem exec_stream_fault_iff (s : State) : exec .stream s = .fault .outsideFramebuffer ↔
    s.streamEnabled = true ∧ s.inFramebuffer s.readAddress.toNat = false := by
  refine ⟨fun h => ?_, fun ⟨he, ho⟩ => exec_stream_of_outside he ho⟩
  cases he : s.streamEnabled with
  | false => rw [exec_of_disabled (i := .stream) he] at h; cases h
  | true =>
    cases hi : s.inFramebuffer s.readAddress.toNat with
    | false => exact ⟨rfl, rfl⟩
    | true => rw [exec_stream_of_inside he hi] at h; cases h

/-- Settles O32: by the three cases of `STREAM`, not enabled, inside and outside the framebuffer. -/
theorem streamFaultsOnlyOutsideFramebuffer : Obligations.StreamFaultsOnlyOutsideFramebuffer := by
  intro s
  rw [exec_stream_fault_iff, s.streamEnabled_iff, and_assoc, and_assoc]

/-! ### The palette -/

/-- Settles O16: the indices and their ORs are closed facts, and each line is its bit by definition. -/
theorem paletteChannels : Obligations.PaletteChannels :=
  ⟨by decide, by decide, by decide, by decide, fun _ => ⟨rfl, rfl, rfl⟩, by decide⟩

end Sys2Proof.Machine

/-! The invariant of the reachable states (10_state.md R29 to R33, R123): what it says of the cursor, that reset
meets it, and that every step keeps it. -/

namespace Sys2Proof.Machine

/-! ### The configuration -/

theorem State.configOk_iff (s : State) : s.configOk = true ↔
    s.params.wf = true ∧ s.unitA = Config.unitA ∧ s.unitB = Config.unitB s.params.fbBase := by
  have hw : Config.widthOk = true := by decide
  simp only [State.configOk, hw, Bool.true_and, Bool.and_eq_true, decide_eq_true_eq, and_assoc]

/-- The framebuffer does not wrap (R22, R42). -/
theorem Params.fbBase_add_totalBytes_le {p : Params} (h : p.wf = true) :
    p.fbBase.toNat + Config.totalBytes ≤ 2 ^ 32 := by
  simp only [Params.wf, Params.baseOk, Bool.and_eq_true, decide_eq_true_eq] at h
  rw [totalBytes_eq] at h ⊢
  omega

/-! ### Reset -/

/-- Settles O2: a framebuffer byte is inside the framebuffer, and after reset it holds its draw. -/
theorem resetBytesAreFree : Obligations.ResetBytesAreFree := by
  intro p i hi
  rw [memRead_fbAddr _ hi, State.fb_resetWith]

/-- At the base with a whole pass before it Unit A meets R29 (R27, R28). -/
theorem State.CursorOk.of_rewound {s : State} (hp : s.pstate ≠ .requestReset)
    (ha : s.readAddress = s.params.fbBase) (hr : s.remaining = BitVec.ofNat 32 Config.totalBytes) : s.CursorOk := by
  have hn : s.remaining.toNat = Config.totalBytes := by rw [hr]; decide
  refine ⟨fun h => absurd h hp, fun _ => hn ▸ by decide, hn.le, ?_⟩
  rw [ha, hn, Nat.sub_self]
  exact (BitVec.add_zero _).symm

theorem State.resetWith_inv {p : Params} (h : p.wf = true) : (State.resetWith p).Inv where
  config := (State.configOk_iff _).mpr ⟨h, rfl, rfl⟩
  cursor := .of_rewound nofun rfl rfl
  requests := Nat.zero_le _
  queue := Nat.zero_le _
  clearing := nofun
  canonical := Memory.reset_wf p
  inside := nofun

/-- Settles O3: `State.reset` is the reset of the well-formed parameters `Config.params`. -/
theorem resetMeetsInvariant : Obligations.ResetMeetsInvariant :=
  ⟨fun _ h => State.resetWith_inv h, State.resetWith_inv (by decide)⟩

/-! ### The cursor in numbers -/

/-- The cursor's register holds the sum of R29 wherever it fits (log 8). -/
theorem State.CursorOk.readAddress_toNat {s : State} (h : s.CursorOk)
    (hf : s.fbAddr (Config.totalBytes - s.remaining.toNat) < 2 ^ 32) :
    s.readAddress.toNat = s.fbAddr (Config.totalBytes - s.remaining.toNat) := by
  rw [h.address, BitVec.toNat_add, BitVec.toNat_ofNat, Nat.add_mod_mod]
  exact Nat.mod_eq_of_lt hf

/-- Outside `REQUEST_RESET` the cursor is at a byte of the framebuffer, at every base (R29). -/
theorem State.Inv.readAddress_of_running {s : State} (h : s.Inv) (hp : s.pstate ≠ .requestReset) :
    s.readAddress.toNat = s.fbAddr (Config.totalBytes - s.remaining.toNat) ∧
      s.inFramebuffer s.readAddress.toNat = true := by
  have hi : Config.totalBytes - s.remaining.toNat < Config.totalBytes :=
    Nat.sub_lt (by decide) (h.cursor.running hp)
  have hb := Params.fbBase_add_totalBytes_le (s.configOk_iff.mp h.config).1
  have ha := h.cursor.readAddress_toNat ((Nat.add_lt_add_left hi _).trans_le hb)
  exact ⟨ha, ha ▸ s.inFramebuffer_fbAddr hi⟩

/-- Settles O52: in `REQUEST_RESET` no byte is left, and elsewhere the cursor is at a framebuffer byte. -/
theorem cursorStaysInFramebuffer : Obligations.CursorStaysInFramebuffer := by
  intro s hs hf
  refine ⟨fun hp => ?_, fun hp => ?_⟩
  · have hr := hs.cursor.exhausted hp
    have ha := hs.cursor.readAddress_toNat
    rw [hr] at ha
    exact ⟨BitVec.eq_of_toNat_eq hr, ha hf⟩
  · obtain ⟨ha, hi⟩ := hs.readAddress_of_running hp
    exact ⟨hs.cursor.running hp, hs.cursor.bounded, ha, hi⟩

/-! ### What a step does to the invariant

Where an operation leaves a field as it was, the clauses about it hold as before (`{ hs with … }`); each proof
gives only the clauses about what the operation writes. -/

theorem State.Inv.of_sameMachine {s t : State} (hs : s.Inv) (h : SameMachine s t) : t.Inv := by
  rw [h]
  exact { hs with cursor := { hs.cursor with } }

theorem State.Inv.raise {s : State} (hs : s.Inv) (k : FaultKind) : (s.raise k).Inv :=
  { hs with cursor := { hs.cursor with } }

theorem State.Inv.refuse {s : State} (hs : s.Inv) (r : RefuseReason) : (s.refuse r).Inv :=
  { hs with cursor := { hs.cursor with } }

/-- A store inside the framebuffer keeps memory canonical and inside. -/
theorem State.Inv.putByte {s : State} (hs : s.Inv) {a : Nat} (ha : s.inFramebuffer a = true) (v : Byte) :
    (s.putByte a v).Inv :=
  { hs with
    cursor := { hs.cursor with }
    canonical := Memory.write_wf a v hs.canonical
    inside := fun c hc => by
      rcases Memory.mem_write hc with rfl | hc
      · exact ha
      · exact hs.inside c hc }

theorem State.Inv.withClr {s : State} (hs : s.Inv) {c : Option Nat} (hc : ∀ k ∈ c, k < Config.totalBytes) :
    ({ s with clr := c } : State).Inv :=
  { hs with cursor := { hs.cursor with }, clearing := hc }

/-- One transfer moves the cursor one byte on, into `REQUEST_RESET` with the last (R89). -/
theorem State.CursorOk.advance {s : State} (hs : s.CursorOk) (hp : s.pstate ≠ .requestReset) :
    ({ s with
      readAddress := s.readAddress + 1
      remaining := s.remaining - 1
      pstate := if s.remaining = 1 then .requestReset else .streaming } : State).CursorOk := by
  have h1 := hs.running hp
  have hb := hs.bounded
  have hr : (s.remaining - 1).toNat = s.remaining.toNat - 1 := BitVec.toNat_sub_of_le h1
  have hlast : (if s.remaining = 1 then PState.requestReset else .streaming) = .requestReset ↔
      s.remaining.toNat = 1 := by
    simp [← BitVec.toNat_inj]
  refine ⟨fun h => ?_, fun h => ?_, by dsimp only; omega, ?_⟩
  · have := hlast.mp h; dsimp only; omega
  · have := mt hlast.mpr h; dsimp only; omega
  · have hoff : Config.totalBytes - (s.remaining - 1).toNat = Config.totalBytes - s.remaining.toNat + 1 := by
      omega
    dsimp only
    rw [hs.address, hoff, BitVec.ofNat_add, BitVec.add_assoc]
    rfl

theorem execSetPixel_keeps_inv {x y : Coord} {c : ColourIndex} {s t : State} (hs : s.Inv)
    (h : execSetPixel x y c s = .next t) : t.Inv := by
  obtain ⟨-, rfl⟩ | ⟨-, rfl⟩ := execSetPixel_next h
  · exact hs
  · exact hs.putByte (s.inFramebuffer_fbAddr (codec_byteIndex_lt x y)) _

theorem execClear_keeps_inv {s t : State} (hs : s.Inv) (h : execClear s = .next t) : t.Inv := by
  obtain ⟨-, rfl⟩ | ⟨-, rfl⟩ := execClear_next h
  · exact hs
  · exact hs.withClr (by rintro k ⟨⟩; decide)

theorem execGetPixel_keeps_inv {x y : Coord} {s t : State} (hs : s.Inv) (h : execGetPixel x y s = .next t) :
    t.Inv := by
  obtain ⟨-, rfl⟩ | ⟨-, rfl⟩ := execGetPixel_next h
  · exact hs
  · exact { hs with cursor := { hs.cursor with } }

theorem execStart_keeps_inv {s t : State} (hs : s.Inv) (h : execStart s = .next t) : t.Inv := by
  obtain ⟨-, rfl⟩ | ⟨-, hp, rfl⟩ | ⟨-, -, rfl⟩ := execStart_next h
  · exact hs
  · have hr : s.pstate ≠ .requestReset := by simp [hp]
    exact { hs with cursor := { hs.cursor with
      exhausted := nofun
      running := fun _ => hs.cursor.running hr } }
  · exact hs.refuse _

/-- The clear goes on only where a byte is left to zero (R33, R78). -/
theorem execClearStep_keeps_inv {s t : State} (hs : s.Inv) (h : execClearStep s = .next t) : t.Inv := by
  obtain ⟨-, rfl⟩ | ⟨k, hk, hi, rfl⟩ := execClearStep_next h
  · exact hs
  · refine (hs.putByte hi 0).withClr fun j hj => ?_
    have hlt := hs.clearing k hk
    split at hj <;> cases hj
    omega

/-- A request is counted only below the bound (R30, R88). -/
theorem execPacerReq_keeps_inv {s t : State} (hs : s.Inv) (h : execPacerReq s = .next t) : t.Inv := by
  obtain ⟨-, rfl⟩ | ⟨-, -, rfl⟩ | ⟨-, hne, rfl⟩ := execPacerReq_next h
  · exact hs.raise _
  · exact hs.raise _
  · exact { hs with cursor := { hs.cursor with }, requests := Nat.lt_of_le_of_ne hs.requests hne }

/-- A byte is queued only where the queue has room (R31, R89). -/
theorem execStream_keeps_inv {s t : State} (hs : s.Inv) (h : execStream s = .next t) : t.Inv := by
  obtain ⟨-, rfl⟩ | ⟨he, -, rfl⟩ := execStream_next h
  · exact hs
  · obtain ⟨hp, -, hroom⟩ := s.streamEnabled_iff.mp he
    exact { hs with
      cursor := { hs.cursor.advance (by simp [hp]) with }
      requests := (Nat.sub_le _ _).trans hs.requests
      queue := by simpa using hroom }

/-- The fixed fields of a configuration rewind Unit A (R24, R25, R92). -/
theorem execReload_keeps_inv {s t : State} (hs : s.Inv) (h : execReload s = .next t) : t.Inv := by
  obtain ⟨-, rfl⟩ | ⟨-, rfl⟩ := execReload_next h
  · exact hs
  · obtain ⟨-, hA, hB⟩ := s.configOk_iff.mp hs.config
    exact { hs with
      cursor := .of_rewound nofun (congrArg UnitBConfig.value hB) (congrArg UnitAConfig.count hA) }

theorem execPop_keeps_inv {s t : State} (hs : s.Inv) (h : execPop s = .next t) : t.Inv := by
  obtain ⟨-, rfl⟩ | ⟨b, rest, hq, rfl⟩ := execPop_next h
  · exact hs.raise _
  · have hlen : rest.length ≤ s.q.length := by simp [hq]
    exact { hs with cursor := { hs.cursor with }, queue := hlen.trans hs.queue }

theorem exec_keeps_inv {i : Instr} {s t : State} (hs : s.Inv) (h : exec i s = .next t) : t.Inv := by
  cases i with
  | setPixel => exact execSetPixel_keeps_inv hs h
  | clear => exact execClear_keeps_inv hs h
  | getPixel => exact execGetPixel_keeps_inv hs h
  | start => exact execStart_keeps_inv hs h
  | clearStep => exact execClearStep_keeps_inv hs h
  | pacerReq => exact execPacerReq_keeps_inv hs h
  | stream => exact execStream_keeps_inv hs h
  | reload => exact execReload_keeps_inv hs h
  | pop => exact execPop_keeps_inv hs h

/-- Settles O53: a turn keeps all that the invariant speaks of, and so does each operation and the refusal. -/
theorem stepKeepsInvariant : Obligations.StepKeepsInvariant := by
  intro s t hs h
  obtain ⟨-, ⟨i, u, -, hu, he⟩ | ⟨-, hu⟩ | ⟨r, u, -, hu, rfl⟩⟩ := step_cases h
  · exact exec_keeps_inv (hs.of_sameMachine hu) he
  · exact hs.of_sameMachine hu
  · exact (hs.of_sameMachine hu).refuse r

end Sys2Proof.Machine

/-! Where a pixel of the screen lies, and which operations store (20_memory.md R41, R43, R45, R51, R55). -/

namespace Sys2Proof.Machine

/-! ### Pixels of the screen -/

/-- A value in the range is not clamped (R12). -/
theorem clamp_of_mem {v lo hi : Int} (hlo : lo ≤ v) (hhi : v ≤ hi) : clamp v lo hi = v := by
  rw [clamp, if_neg (Int.not_lt.mpr hlo), if_neg (Int.not_lt.mpr hhi)]

/-- A coordinate within a screen side of `n` pixels is not clamped (R71). -/
theorem clamp_toNat_of_lt {v : Coord} {n : Nat} (hv : v.toNat < n) (hn : n ≤ 2 ^ 31) :
    (clamp v.toInt 0 (n - 1)).toNat = v.toNat := by
  have hi : v.toInt = v.toNat := BitVec.toInt_eq_toNat_of_lt (by omega)
  rw [hi, clamp_of_mem (by omega) (by omega), Int.toNat_natCast]

/-- On the screen `linear` is the pixel's own index (R43, R71). -/
theorem linearOf_of_onScreen {x y : Coord} (hx : x.toNat < 640) (hy : y.toNat < 480) :
    linearOf x y = y.toNat * 640 + x.toNat := by
  have hxc := clamp_toNat_of_lt (n := Config.width) hx (by decide)
  have hyc := clamp_toNat_of_lt (n := Config.height) hy (by decide)
  rw [linearOf, hxc, hyc, Config.width]

/-- The pixel of linear index `2i + n` is the one at nibble `n` of byte `i` (R43). -/
theorem codec_eq_iff {x y : Coord} {i n : Nat} (hn : n < 2) (hx : x.toNat < 640) (hy : y.toNat < 480) :
    codec x y = ⟨i, n⟩ ↔ y.toNat * 640 + x.toNat = 2 * i + n := by
  rw [codec, PixelField.mk.injEq, linearOf_of_onScreen hx hy]
  omega

/-- The number of a coordinate is that of its word. -/
theorem toNat_ofNat_coord {v : Nat} (hv : v < 640) : (BitVec.ofNat 32 v).toNat = v :=
  Nat.mod_eq_of_lt (by omega)

/-- A linear index gives back the pixel of the screen. -/
theorem onScreen_unique {x y x' y' : Coord} (hx : x.toNat < 640) (hx' : x'.toNat < 640)
    (h : y.toNat * 640 + x.toNat = y'.toNat * 640 + x'.toNat) : x = x' ∧ y = y' :=
  ⟨BitVec.eq_of_toNat_eq (by omega), BitVec.eq_of_toNat_eq (by omega)⟩

/-- Settles O19: the pixel of byte `i`, nibble `n` is column `2 * (i % 320) + n` of row `i / 320`, and its
linear index leaves no other. -/
theorem byteHoldsTwoPixels : Obligations.ByteHoldsTwoPixels := by
  refine ⟨fun x y hx hy => ?_, fun i n hi hn => ?_⟩
  · have hl := linearOf_of_onScreen hx hy
    exact ⟨congrArg (· / 2) hl, congrArg (· % 2) hl⟩
  · rw [totalBytes_eq] at hi
    have hxn := toNat_ofNat_coord (v := 2 * (i % 320) + n) (by omega)
    have hyn := toNat_ofNat_coord (v := i / 320) (by omega)
    have hx := hxn.trans_lt (show _ < 640 by omega)
    have hy := hyn.trans_lt (show _ < 480 by omega)
    have hl : (BitVec.ofNat 32 (i / 320)).toNat * 640 + (BitVec.ofNat 32 (2 * (i % 320) + n)).toNat =
        2 * i + n := by omega
    exact ⟨_, _, hx, hy, (codec_eq_iff hn hx hy).mpr hl, hl, hyn, hxn, fun x' y' hx' hy' h' =>
      onScreen_unique hx' hx (((codec_eq_iff hn hx' hy').mp h').trans hl.symm)⟩

/-- Column `2k + n` of row `y` is nibble `n` of byte `k` of the row (R45). -/
theorem codec_row {k y n : Nat} (hk : k < 320) (hy : y < 480) (hn : n < 2) :
    codec (BitVec.ofNat 32 (2 * k + n)) (BitVec.ofNat 32 y) = ⟨y * 320 + k, n⟩ := by
  have hxn := toNat_ofNat_coord (v := 2 * k + n) (by omega)
  have hyn := toNat_ofNat_coord (v := y) (by omega)
  exact (codec_eq_iff hn (by omega) (by omega)).mpr (by omega)

/-- Settles O20: both nibbles of byte `k` of row `y`. -/
theorem rowOfThreeHundredTwentyBytes : Obligations.RowOfThreeHundredTwentyBytes :=
  fun _ _ hk hy => ⟨codec_row hk hy (n := 0) (by decide), codec_row hk hy (n := 1) (by decide)⟩

/-! ### What does not store -/

/-- A read answers by the memory and the place of the framebuffer alone (R13, R53). -/
theorem memRead_congr {s t : State} (hp : t.params = s.params) (hm : t.mem = s.mem) (a : Nat) :
    memRead t a = memRead s a := by
  have hi : t.inFramebuffer a = s.inFramebuffer a := by rw [State.inFramebuffer, hp, State.inFramebuffer]
  have hb : t.byteAt a = s.byteAt a := by rw [State.byteAt, hp, hm, State.byteAt]
  rw [memRead, hi, hb, memRead]

/-- All but the pixel writes and the bytes of a clear keep what a read looks at (R41, R51, R55). -/
theorem exec_keeps_params_mem {i : Instr} {s t : State} (h : exec i s = .next t)
    (hset : ∀ (x y : Coord) (c : ColourIndex), i ≠ .setPixel x y c) (hstep : i ≠ .clearStep) :
    t.params = s.params ∧ t.mem = s.mem := by
  cases i with
  | setPixel x y c => exact absurd rfl (hset x y c)
  | clearStep => exact absurd rfl hstep
  | clear => obtain ⟨-, rfl⟩ | ⟨-, rfl⟩ := execClear_next h <;> exact ⟨rfl, rfl⟩
  | getPixel => obtain ⟨-, rfl⟩ | ⟨-, rfl⟩ := execGetPixel_next h <;> exact ⟨rfl, rfl⟩
  | start => obtain ⟨-, rfl⟩ | ⟨-, -, rfl⟩ | ⟨-, -, rfl⟩ := execStart_next h <;> exact ⟨rfl, rfl⟩
  | pacerReq => obtain ⟨-, rfl⟩ | ⟨-, -, rfl⟩ | ⟨-, -, rfl⟩ := execPacerReq_next h <;> exact ⟨rfl, rfl⟩
  | stream => obtain ⟨-, rfl⟩ | ⟨-, -, rfl⟩ := execStream_next h <;> exact ⟨rfl, rfl⟩
  | reload => obtain ⟨-, rfl⟩ | ⟨-, rfl⟩ := execReload_next h <;> exact ⟨rfl, rfl⟩
  | pop => obtain ⟨-, rfl⟩ | ⟨b, rest, -, rfl⟩ := execPop_next h <;> exact ⟨rfl, rfl⟩

/-- Settles O48: a read answers by what the other operations keep. -/
theorem onlyTwoOperationsStore : Obligations.OnlyTwoOperationsStore := by
  intro i s t h hset hstep
  obtain ⟨hp, hm⟩ := exec_keeps_params_mem h hset hstep
  exact memRead_congr hp hm

end Sys2Proof.Machine

/-! The encoding of operations as words (30_encoding.md R59 to R65, R68): which words there are, decoding as the
inverse of encoding, which words are reserved, and the lines of a program. -/

namespace Sys2Proof

/-! ### Operand words -/

theorem wordOfBytes_extractLsb' (v : Coord) :
    wordOfBytes (v.extractLsb' 24 8) (v.extractLsb' 16 8) (v.extractLsb' 8 8) (v.extractLsb' 0 8) = v := by
  apply BitVec.eq_of_toNat_eq
  simp only [wordOfBytes_toNat, BitVec.extractLsb'_toNat, Nat.shiftRight_eq_div_pow]
  omega

theorem bytesOfWord_wordOfBytes (b3 b2 b1 b0 : Byte) :
    bytesOfWord (wordOfBytes b3 b2 b1 b0) = [b3, b2, b1, b0] := by
  simp only [bytesOfWord, List.cons.injEq, and_true, ← BitVec.toNat_inj, BitVec.extractLsb'_toNat,
    wordOfBytes_toNat, Nat.shiftRight_eq_div_pow]
  omega

/-- The operands a stream begins with are those whose bytes it begins with (R61, log 5). -/
theorem takeOperands_eq_some_iff {bytes rest : List Byte} {x y : Coord} :
    takeOperands bytes = some (x, y, rest) ↔ bytes = bytesOfWord x ++ (bytesOfWord y ++ rest) := by
  constructor
  · intro h
    unfold takeOperands at h
    split at h <;> cases h
    simp only [bytesOfWord_wordOfBytes, List.cons_append, List.nil_append]
  · rintro rfl
    simp only [bytesOfWord, List.cons_append, List.nil_append, takeOperands, wordOfBytes_extractLsb']

/-! ### Code words -/

/-- The fields make up the word (R60). -/
theorem opField_append_reservedBit_append_colourField (w : Byte) :
    opField w ++ reservedBit w ++ colourField w = w := by
  revert w; decide

/-- The bytes that show which row of R62 an operation is: its code word. -/
def CodeWord.bytes : CodeWord → List Byte
  | .setPixel c => [codeWord (.setPixel 0 0 c)]
  | .getPixel => [codeWord (.getPixel 0 0)]
  | .plain i => encode i

theorem plainRow_bytes : ∀ op : BitVec 4, ∀ r ∈ plainRow op, r.bytes = [op ++ 0#1 ++ 0#3] := by decide

/-- Each row has one word for each value of its colour (R62, R63). -/
theorem readCodeWord_bytes {w : Byte} {r : CodeWord} (h : readCodeWord w = some r) : r.bytes = [w] := by
  have hw := opField_append_reservedBit_append_colourField w
  unfold readCodeWord at h
  split_ifs at h with hr hop hc
  · cases h
    rw [hop, not_not.mp hr] at hw
    exact congrArg (fun v => [v]) hw
  · rw [not_not.mp hr, not_not.mp hc] at hw
    exact (plainRow_bytes _ r h).trans (congrArg (fun v => [v]) hw)

theorem readCodeWord_setPixel : ∀ c : ColourIndex, readCodeWord (0b00010#5 ++ c) = some (.setPixel c) := by
  decide

theorem readCodeWord_getPixel : readCodeWord 0b00110000 = some .getPixel := by decide

/-! ### Decoding -/

theorem encode_setPixel_append (x y : Coord) (c : ColourIndex) (rest : List Byte) :
    encode (.setPixel x y c) ++ rest =
      (0b00010#5 ++ c) :: (bytesOfWord x ++ (bytesOfWord y ++ rest)) := rfl

theorem encode_getPixel_append (x y : Coord) (rest : List Byte) :
    encode (.getPixel x y) ++ rest = 0b00110000 :: (bytesOfWord x ++ (bytesOfWord y ++ rest)) := rfl

theorem decode_encode_append (i : Instr) (rest : List Byte) : decode (encode i ++ rest) = .ok (i, rest) := by
  cases i with
  | setPixel x y c =>
    rw [encode_setPixel_append, decode_cons, readCodeWord_setPixel, takeOperands_eq_some_iff.mpr rfl]
  | getPixel x y =>
    rw [encode_getPixel_append, decode_cons, readCodeWord_getPixel, takeOperands_eq_some_iff.mpr rfl]
  | clear | start | clearStep | pacerReq | stream | reload | pop => rfl

/-- The code word fixes the row, and the operands are what follows it. -/
theorem eq_encode_append_of_decode {bytes rest : List Byte} {i : Instr} (h : decode bytes = .ok (i, rest)) :
    bytes = encode i ++ rest := by
  cases bytes with
  | nil => cases h
  | cons w more =>
    rw [decode_cons] at h
    cases hr : readCodeWord w with
    | none => rw [hr] at h; cases h
    | some r =>
      have hw : w :: more = r.bytes ++ more := by rw [readCodeWord_bytes hr]; rfl
      rw [hr] at h
      cases r with
      | plain j => cases h; exact hw
      | setPixel c | getPixel =>
        dsimp only at h
        split at h <;> rename_i ho <;> cases h
        rw [hw, takeOperands_eq_some_iff.mp ho]
        rfl

/-- Settles O10: the operand words' bytes give the words back, and each code word reads as its row. -/
theorem decodeOfEncode : Obligations.DecodeOfEncode := decode_encode_append

/-- Settles O11: by the row that the stream's code word reads as. -/
theorem encodeOfDecode : Obligations.EncodeOfDecode := fun _ _ _ => eq_encode_append_of_decode

/-- Settles O12: the words are fixed ones, and each is decoded. -/
theorem specWordsDecode : Obligations.SpecWordsDecode := by
  unfold Obligations.SpecWordsDecode
  decide

/-! ### Events -/

theorem Instr.isCommand_eq_false_iff (i : Instr) : i.isCommand = false ↔
    i = .clearStep ∨ i = .pacerReq ∨ i = .stream ∨ i = .reload ∨ i = .pop := by
  cases i <;> simp [Instr.isCommand, Instr.agent]

/-- An event is its code word alone (R63, R65). -/
theorem encode_of_event {i : Instr} (h : i.isCommand = false) : encode i = [codeWord i] := by
  obtain rfl | rfl | rfl | rfl | rfl := i.isCommand_eq_false_iff.mp h <;> rfl

/-! ### Reserved words -/

theorem decode_cons_eq_reserved_iff (w : Byte) (rest : List Byte) :
    decode (w :: rest) = .error .reservedEncoding ↔ readCodeWord w = none := by
  rw [decode_cons]
  cases readCodeWord w with
  | none => exact iff_of_true rfl rfl
  | some r =>
    refine iff_of_false ?_ nofun
    cases r with
    | plain i => exact nofun
    | setPixel c | getPixel => cases takeOperands rest <;> exact nofun

/-- The tests of R63 leave the words of R64's arithmetic, over all bytes. -/
theorem readCodeWord_eq_none_iff : ∀ w : Byte, readCodeWord w = none ↔ Machine.IsReservedWord w := by
  decide +kernel

theorem decode_cons_eq_reserved_iff_isReservedWord (w : Byte) (rest : List Byte) :
    decode (w :: rest) = .error .reservedEncoding ↔ Machine.IsReservedWord w :=
  (decode_cons_eq_reserved_iff w rest).trans (readCodeWord_eq_none_iff w)

/-! ### Lines of a program -/

theorem isSint32_iff (v : Int) : isSint32 v = true ↔ -2147483648 ≤ v ∧ v ≤ 2147483647 := decide_eq_true_iff

theorem isColour_iff (v : Int) : isColour v = true ↔ 0 ≤ v ∧ v ≤ 7 := decide_eq_true_iff

/-- An operand word holds a `sint32`'s value (R61). -/
theorem toInt_ofInt_of_sint32 {v : Int} (h : -2147483648 ≤ v ∧ v ≤ 2147483647) :
    (BitVec.ofInt 32 v).toInt = v :=
  BitVec.toInt_ofInt_eq_self (by decide) h.1 (by omega)

/-- The 3 bits of the code word hold a colour's value (R60). -/
theorem toNat_ofInt_of_colour {v : Int} (h : 0 ≤ v ∧ v ≤ 7) : ((BitVec.ofInt 3 v).toNat : Int) = v := by
  rw [BitVec.toNat_ofInt]
  omega

theorem Line.setPixel_wf_iff (x y c : Int) : (Line.setPixel x y c).wf = true ↔
    (-2147483648 ≤ x ∧ x ≤ 2147483647) ∧ (-2147483648 ≤ y ∧ y ≤ 2147483647) ∧ 0 ≤ c ∧ c ≤ 7 := by
  simp only [Line.wf, Bool.and_eq_true, isSint32_iff, isColour_iff, and_assoc]

theorem Line.getPixel_wf_iff (x y : Int) : (Line.getPixel x y).wf = true ↔
    (-2147483648 ≤ x ∧ x ≤ 2147483647) ∧ -2147483648 ≤ y ∧ y ≤ 2147483647 := by
  simp only [Line.wf, Bool.and_eq_true, isSint32_iff]

theorem Line.assemble_of_not_wf {l : Line} (h : ¬ l.wf = true) : l.assemble = none := if_neg h

/-- Settles O15: a line is assembled where it is well formed, and the operands keep what is in range. -/
theorem linesAssembleInRange : Obligations.LinesAssembleInRange := by
  refine ⟨fun x y c => ⟨fun h => ?_, fun h => ?_⟩, fun x y => ⟨fun h => ?_, fun h => ?_⟩, rfl, rfl,
    by decide +kernel⟩
  · obtain ⟨hx, hy, hc⟩ := h
    exact ⟨_, _, _, if_pos ((Line.setPixel_wf_iff x y c).mpr ⟨hx, hy, hc⟩),
      toInt_ofInt_of_sint32 hx, toInt_ofInt_of_sint32 hy, toNat_ofInt_of_colour hc⟩
  · exact Line.assemble_of_not_wf (mt (Line.setPixel_wf_iff x y c).mp h)
  · obtain ⟨hx, hy⟩ := h
    exact ⟨_, _, if_pos ((Line.getPixel_wf_iff x y).mpr ⟨hx, hy⟩),
      toInt_ofInt_of_sint32 hx, toInt_ofInt_of_sint32 hy⟩
  · exact Line.assemble_of_not_wf (mt (Line.getPixel_wf_iff x y).mp h)

end Sys2Proof

/-! What the CPU port does with the word at the head of its program, and which steps a run's trace holds
(30_encoding.md R59, R64, R65; 60_exceptions.md R115). -/

namespace Sys2Proof.Machine

/-! ### The CPU port's turn -/

theorem fetch_of_port {s : State} (ha : s.nextAgent = .cpuPort) : fetch s = fetchCommand s.turnTaken := by
  simp only [fetch, ha]

/-- The free port does what its program decodes to. -/
theorem fetchCommand_of_command {s : State} {i : Instr} {rest : List Byte} (hp : s.clr = none)
    (hd : decode s.program = .ok (i, rest)) (hi : i.isCommand = true) :
    fetchCommand s = .run i { s with program := rest } := by
  simp only [fetchCommand, s.portFree_iff.mpr hp, hd, hi, if_true]

theorem fetchCommand_of_event {s : State} {i : Instr} {rest : List Byte} (hp : s.clr = none)
    (hd : decode s.program = .ok (i, rest)) (hi : i.isCommand = false) :
    fetchCommand s = .refuse .eventAsCommand { s with program := rest } := by
  simp only [fetchCommand, s.portFree_iff.mpr hp, hd, hi, if_true, Bool.false_eq_true, if_false]

theorem fetchCommand_of_reserved {s : State} (hp : s.clr = none)
    (hd : decode s.program = .error .reservedEncoding) :
    fetchCommand s = .refuse .reservedEncoding { s with program := s.program.tail } := by
  simp only [fetchCommand, s.portFree_iff.mpr hp, hd, if_true]

theorem fetchCommand_of_busy {s : State} (hp : s.clr ≠ none) : fetchCommand s = .hold s := by
  simp only [fetchCommand, s.portFree_eq_false_iff.mpr hp, Bool.false_eq_true, if_false]

theorem fetchCommand_of_incomplete {s : State} (hp : s.clr = none) (hd : decode s.program = .error .incomplete) :
    fetchCommand s = .hold s := by
  simp only [fetchCommand, s.portFree_iff.mpr hp, hd, if_true]

/-- Settles O6: the turn fetches the decoded command, and `step` runs what is fetched. -/
theorem stepRunsDecodedCommand : Obligations.StepRunsDecodedCommand := by
  intro s i rest hc ha hp hd hi
  rw [← s.turnTaken_clr] at hp
  rw [← s.turnTaken_program] at hd
  exact step_of_run hc ((fetch_of_port ha).trans (fetchCommand_of_command hp hd hi))

theorem step_of_hold {s t : State} (hc : s.configOk = true) (hf : fetch s = .hold t) : step s = .next t := by
  simp only [step, hc, hf, hold, if_true]

theorem step_of_refuse {s t : State} {r : RefuseReason} (hc : s.configOk = true) (hf : fetch s = .refuse r t) :
    step s = .next (t.refuse r) := by
  simp only [step, hc, hf, if_true]

/-- A reserved word at the free port sets the mark and is taken off (R64). -/
theorem step_of_reserved {s : State} {w : Byte} {rest : List Byte} (hc : s.configOk = true)
    (ha : s.nextAgent = .cpuPort) (hp : s.clr = none) (hs : s.program = w :: rest) (hw : IsReservedWord w) :
    step s = .next { s.turnTaken with program := rest, refused := true } := by
  have hd : decode s.program = .error .reservedEncoding :=
    hs ▸ (decode_cons_eq_reserved_iff_isReservedWord w rest).mpr hw
  rw [← s.turnTaken_clr] at hp
  rw [← s.turnTaken_program] at hd hs
  rw [step_of_refuse hc ((fetch_of_port ha).trans (fetchCommand_of_reserved hp hd)), hs]
  rfl

/-- Settles O13: the list and the count over all words, and the refusal at the port. -/
theorem reservedWordRefused : Obligations.ReservedWordRefused :=
  ⟨decode_cons_eq_reserved_iff_isReservedWord, by decide +kernel, fun _ _ _ => step_of_reserved⟩

/-- An event's word at the free port sets the mark and is taken off (R65). -/
theorem step_of_event_word {s : State} {i : Instr} {rest : List Byte} (hc : s.configOk = true)
    (ha : s.nextAgent = .cpuPort) (hp : s.clr = none) (hd : decode s.program = .ok (i, rest))
    (hi : i.isCommand = false) :
    step s = .next { s.turnTaken with program := rest, refused := true } := by
  rw [← s.turnTaken_clr] at hp
  rw [← s.turnTaken_program] at hd
  rw [step_of_refuse hc ((fetch_of_port ha).trans (fetchCommand_of_event hp hd hi))]
  rfl

/-! ### What a turn comes to -/

/-- The word is reserved or an event's: one that the CPU port refuses (R64, R65). -/
def IsRefusedWord (w : Byte) : Prop := IsReservedWord w ∨ ∃ i : Instr, i.isCommand = false ∧ w = codeWord i

/-- All that the CPU port's turn can come to. -/
theorem fetchCommand_cases (s : State) :
    fetchCommand s = .hold s ∨
    (∃ i rest, fetchCommand s = .run i { s with program := rest } ∧ s.clr = none ∧
      decode s.program = .ok (i, rest) ∧ i.isCommand = true) ∨
    ∃ r w rest, fetchCommand s = .refuse r { s with program := rest } ∧ s.clr = none ∧
      s.program = w :: rest ∧ IsRefusedWord w := by
  by_cases hp : s.clr = none
  · cases hd : decode s.program with
    | ok ir =>
      obtain ⟨i, rest⟩ := ir
      cases hi : i.isCommand with
      | true => exact .inr (.inl ⟨i, rest, fetchCommand_of_command hp hd hi, hp, rfl, hi⟩)
      | false =>
        have hs : s.program = codeWord i :: rest := by
          rw [eq_encode_append_of_decode hd, encode_of_event hi]; rfl
        exact .inr (.inr ⟨_, _, rest, fetchCommand_of_event hp hd hi, hp, hs, .inr ⟨i, hi, rfl⟩⟩)
    | error e =>
      cases e with
      | incomplete => exact .inl (fetchCommand_of_incomplete hp hd)
      | reservedEncoding =>
        have hf := fetchCommand_of_reserved hp hd
        cases hs : s.program with
        | nil => rw [hs] at hd; cases hd
        | cons w rest =>
          rw [hs] at hd hf
          have hw := (decode_cons_eq_reserved_iff_isReservedWord w rest).mp hd
          exact .inr (.inr ⟨_, w, rest, hf, hp, rfl, .inl hw⟩)
  · exact .inl (fetchCommand_of_busy hp)

theorem exists_event_of_ne_cpuPort {a : Agent} (h : a ≠ .cpuPort) :
    ∃ i : Instr, i.isCommand = false ∧ i.agent = a := by
  cases a with
  | cpuPort => exact absurd rfl h
  | clearSequencer => exact ⟨.clearStep, rfl, rfl⟩
  | unitA => exact ⟨.stream, rfl, rfl⟩
  | unitB => exact ⟨.reload, rfl, rfl⟩
  | pacer => exact ⟨.pacerReq, rfl, rfl⟩
  | consumer => exact ⟨.pop, rfl, rfl⟩

/-- All that a turn can come to: an operation of the agent whose turn it is, for the CPU port the command that
its program decodes to, with that command's words taken off; or a refused word taken off; or nothing. -/
theorem fetch_cases (s : State) :
    fetch s = .hold s.turnTaken ∨
    (∃ i rest, fetch s = .run i { s.turnTaken with program := rest } ∧ i.agent = s.nextAgent ∧
      (i.isCommand = true → s.clr = none ∧ decode s.program = .ok (i, rest)) ∧
      (i.isCommand = false → rest = s.program)) ∨
    ∃ r w rest, fetch s = .refuse r { s.turnTaken with program := rest } ∧ s.nextAgent = .cpuPort ∧
      s.clr = none ∧ s.program = w :: rest ∧ IsRefusedWord w := by
  by_cases ha : s.nextAgent = .cpuPort
  · rw [fetch_of_port ha]
    obtain hf | ⟨i, rest, hf, hp, hd, hi⟩ | ⟨r, w, rest, hf, hp, hs, hw⟩ := fetchCommand_cases s.turnTaken
    · exact .inl hf
    · rw [s.turnTaken_clr] at hp
      rw [s.turnTaken_program] at hd
      exact .inr (.inl ⟨i, rest, hf, (eq_of_beq hi).trans ha.symm, fun _ => ⟨hp, hd⟩, by simp [hi]⟩)
    · rw [s.turnTaken_clr] at hp
      rw [s.turnTaken_program] at hs
      exact .inr (.inr ⟨r, w, rest, hf, ha, hp, hs, hw⟩)
  · obtain ⟨i, hi, hia⟩ := exists_event_of_ne_cpuPort ha
    refine .inr (.inl ⟨i, s.program, ?_, hia, by simp [hi], fun _ => rfl⟩)
    rw [fetch_of_event hi hia.symm, ← s.turnTaken_program]

/-- Settles O14: the events by the agent of each operation, the port by what a turn comes to. -/
theorem eventWordRefused : Obligations.EventWordRefused := by
  refine ⟨Instr.isCommand_eq_false_iff, fun _ _ _ => step_of_event_word, fun s u i h => ?_,
    fun _ _ => exec_of_disabled⟩
  obtain hf | ⟨j, rest, hf, ha, -⟩ | ⟨r, w, rest, hf, -⟩ := fetch_cases s <;> cases hf.symm.trans h
  exact ha

/-! ### The steps of a run -/

theorem SameMachine.enabled_eq {s u : State} (h : SameMachine s u) (i : Instr) : u.enabled i = s.enabled i := by
  rw [h]
  cases i <;> rfl

theorem enabled_of_command {s : State} {i : Instr} (hi : i.isCommand = true) (hp : s.clr = none) :
    s.enabled i = true := by
  cases i with
  | setPixel | clear | getPixel | start => exact s.portFree_iff.mpr hp
  | clearStep | pacerReq | stream | reload | pop => cases hi

/-- All that a turn with a next state can take: no step, an enabled operation, or a refused word. -/
theorem step_taken_cases {s t : State} (h : step s = .next t) :
    (s.taken = none ∧ t = s.turnTaken) ∨
    (∃ i rest, s.taken = some (.operation i) ∧ i.agent = s.nextAgent ∧ s.enabled i = true ∧
      exec i { s.turnTaken with program := rest } = .next t ∧
      (i.isCommand = true → decode s.program = .ok (i, rest)) ∧ (i.isCommand = false → rest = s.program)) ∨
    ∃ w rest, s.taken = some (.refusedWord w) ∧ s.nextAgent = .cpuPort ∧ s.clr = none ∧ IsRefusedWord w ∧
      s.program = w :: rest ∧ t = { s.turnTaken with program := rest, refused := true } := by
  have ht := taken_of_step h
  have hc := (step_cases h).1
  obtain hf | ⟨i, rest, hf, ha, hcmd, hev⟩ | ⟨r, w, rest, hf, ha, hp, hs, hw⟩ := fetch_cases s
  · cases (step_of_hold hc hf).symm.trans h
    rw [hf] at ht
    exact .inl ⟨ht, rfl⟩
  · have he : ({ s.turnTaken with program := rest } : State).enabled i = s.enabled i :=
      (fetch_sameMachine (.inl ⟨i, hf⟩)).enabled_eq i
    have hx := (step_of_run hc hf).symm.trans h
    simp only [hf, he] at ht
    cases hi : s.enabled i with
    | true =>
      rw [hi] at ht
      exact .inr (.inl ⟨i, rest, ht, ha, hi, hx, fun hcm => (hcmd hcm).2, hev⟩)
    | false =>
      have hevent : i.isCommand = false :=
        Bool.eq_false_iff.mpr fun hcm => by simp [enabled_of_command hcm (hcmd hcm).1] at hi
      rw [exec_of_disabled (he.trans hi), hev hevent, ← s.turnTaken_program] at hx
      cases hx
      rw [hi] at ht
      exact .inl ⟨ht, rfl⟩
  · cases (step_of_refuse hc hf).symm.trans h
    rw [hf, hs] at ht
    exact .inr (.inr ⟨w, rest, ht, ha, hp, hw, hs, rfl⟩)

theorem traceOf_succ {s t : State} (n : Nat) (h : step s = .next t) :
    traceOf (n + 1) s = (s.taken.map Taken.word).toList ++ traceOf n t := by
  rw [traceOf, takenOf_succ n h, List.map_append, traceOf]
  cases s.taken <;> rfl

/-- Settles O55: by what a turn with a next state can take. -/
theorem traceHoldsStepsTaken : Obligations.TraceHoldsStepsTaken := by
  refine ⟨fun s t h => ?_, fun _ => rfl, fun _ => rfl⟩
  obtain ⟨ht, hu⟩ | ⟨j, rest, ht, ha, he, hx, hcmd, hev⟩ | ⟨v, rest, ht, ha, hp, hv, hs, hu⟩ := step_taken_cases h
  · exact ⟨fun _ => hu, fun i hi => (nomatch ht.symm.trans hi), fun w hw => (nomatch ht.symm.trans hw),
      fun n => traceOf_succ n h⟩
  · refine ⟨fun hn => (nomatch ht.symm.trans hn), fun i hi => ?_, fun w hw => (nomatch ht.symm.trans hw),
      fun n => traceOf_succ n h⟩
    cases ht.symm.trans hi
    exact ⟨ha, he, rest, hx, hcmd, hev⟩
  · refine ⟨fun hn => (nomatch ht.symm.trans hn), fun i hi => (nomatch ht.symm.trans hi), fun w hw => ?_,
      fun n => traceOf_succ n h⟩
    cases ht.symm.trans hw
    exact ⟨ha, hp, hv, rest, hs, hu⟩

end Sys2Proof.Machine

/-! What the pixel operations and the clear do to the framebuffer (40_codec.md R71 to R84): the codec of clamped
coordinates, stores that only add bits, one field of a byte, and the progress of a clear. -/

namespace Sys2Proof.Machine

/-! ### The codec of clamped coordinates -/

theorem clamp_eq_max_min {v lo hi : Int} (h : lo ≤ hi) : clamp v lo hi = max lo (min v hi) := by
  unfold clamp
  split
  · omega
  · split <;> omega

theorem linearOf_eq_max_min (x y : Coord) :
    (linearOf x y : Int) = max 0 (min y.toInt 479) * 640 + max 0 (min x.toInt 639) := by
  have hx : clamp x.toInt 0 (Config.width - 1) = max 0 (min x.toInt 639) := clamp_eq_max_min (by decide)
  have hy : clamp y.toInt 0 (Config.height - 1) = max 0 (min y.toInt 479) := clamp_eq_max_min (by decide)
  rw [linearOf, hx, hy, Config.width]
  omega

/-- Settles O17: `linear` is the number the rule computes, and its range is that of the clamped coordinates. -/
theorem codecComputesField : Obligations.CodecComputesField := by
  intro x y xc yc linear
  have hl : (linearOf x y : Int) = linear := linearOf_eq_max_min x y
  have hr : 0 ≤ linear ∧ linear ≤ 307199 := by omega
  refine ⟨?_, ?_, hr.1, hr.2, ?_, ?_⟩ <;> simp only [codec] <;> omega

/-- Clamping changes nothing in a clamped value (R12). -/
theorem clamp_clamp {v lo hi : Int} (h : lo ≤ hi) : clamp (clamp v lo hi) lo hi = clamp v lo hi :=
  have ⟨hlo, hhi⟩ := clamp_range h
  clamp_of_mem hlo hhi

/-- The codec answers the same for the separately clamped coordinates (R71, R72). -/
theorem codec_eq_of_clamped {x y x' y' : Coord} (hx : x'.toInt = clamp x.toInt 0 639)
    (hy : y'.toInt = clamp y.toInt 0 479) : codec x y = codec x' y' := by
  have hxc : clamp x'.toInt 0 (Config.width - 1) = clamp x.toInt 0 (Config.width - 1) :=
    hx ▸ clamp_clamp (by decide)
  have hyc : clamp y'.toInt 0 (Config.height - 1) = clamp y.toInt 0 (Config.height - 1) :=
    hy ▸ clamp_clamp (by decide)
  simp only [codec, linearOf, hxc, hyc]

/-- `SETPIXEL` uses its coordinates through the codec alone (R74). -/
theorem exec_setPixel_congr {x y x' y' : Coord} (h : codec x y = codec x' y') (c : ColourIndex) (s : State) :
    exec (.setPixel x y c) s = exec (.setPixel x' y' c) s := by
  simp only [exec, execSetPixel, h]

/-- `GETPIXEL` uses its coordinates through the codec alone (R81). -/
theorem exec_getPixel_congr {x y x' y' : Coord} (h : codec x y = codec x' y') (s : State) :
    exec (.getPixel x y) s = exec (.getPixel x' y') s := by
  simp only [exec, execGetPixel, h]

/-- Settles O18: both operations use their coordinates through the codec, which clamps them. -/
theorem offScreenWritesNearestEdge : Obligations.OffScreenWritesNearestEdge :=
  ⟨fun _ _ _ _ c s hx hy =>
      have hcodec := codec_eq_of_clamped hx hy
      ⟨exec_setPixel_congr hcodec c s, exec_getPixel_congr hcodec s⟩,
    fun c s => ⟨exec_setPixel_congr (codec_eq_of_clamped (by decide) (by decide)) c s,
      exec_setPixel_congr (codec_eq_of_clamped (by decide) (by decide)) c s⟩⟩

/-! ### The free and the busy port -/

/-- No command is taken while a clear is in progress (R80). -/
theorem exec_of_busy {i : Instr} {s : State} (hi : i.isCommand = true) (hb : s.clr ≠ none) :
    exec i s = .next s := by
  apply exec_of_disabled
  cases i with
  | setPixel | clear | getPixel | start => exact s.portFree_eq_false_iff.mpr hb
  | clearStep | pacerReq | stream | reload | pop => cases hi

/-- Settles O8: a command is not enabled, and the busy port holds its turn. -/
theorem commandsWaitForClear : Obligations.CommandsWaitForClear := by
  refine ⟨fun i s => exec_of_busy, fun s hc ha hb => ?_⟩
  rw [← s.turnTaken_clr] at hb
  exact step_of_hold hc ((fetch_of_port ha).trans (fetchCommand_of_busy hb))

theorem exec_clear_of_free {s : State} (hp : s.clr = none) : exec .clear s = .next { s with clr := some 0 } :=
  if_pos (s.portFree_iff.mpr hp)

theorem exec_getPixel_of_free {s : State} (hp : s.clr = none) (x y : Coord) :
    exec (.getPixel x y) s = .next { s with
      results := s.results ++ [fieldOf (s.fb (codec x y).byteIndex) (codec x y).nibble] } := by
  simp only [exec, execGetPixel, s.portFree_iff.mpr hp, if_true, memRead_fbAddr s (codec_byteIndex_lt x y),
    andThen_of_next]

/-! ### Bits added to a byte -/

/-- The state with bits added to framebuffer byte `i`, what a pixel write stores (R74). -/
def State.orByte (s : State) (i : Nat) (m : Byte) : State := s.putByte (s.fbAddr i) (s.fb i ||| m)

theorem exec_setPixel_of_free {s : State} (hp : s.clr = none) (x y : Coord) (c : ColourIndex) :
    exec (.setPixel x y c) s =
      .next (s.orByte (codec x y).byteIndex (fieldMask c (codec x y).nibble)) := by
  have hi := codec_byteIndex_lt x y
  simp only [exec, execSetPixel, s.portFree_iff.mpr hp, if_true, memRead_fbAddr s hi, andThen_of_next,
    memWrite_fbAddr s hi, State.orByte]

/-- A free port does the pixel write, a busy one leaves the state as it is. -/
theorem exec_setPixel_cases {x y : Coord} {c : ColourIndex} {s t : State}
    (h : exec (.setPixel x y c) s = .next t) :
    t = s ∨ t = s.orByte (codec x y).byteIndex (fieldMask c (codec x y).nibble) := by
  obtain ⟨-, rfl⟩ | ⟨-, rfl⟩ := execSetPixel_next h
  · exact .inl rfl
  · exact .inr rfl

@[simp] theorem State.clr_orByte (s : State) (i : Nat) (m : Byte) : (s.orByte i m).clr = s.clr := rfl

@[simp] theorem State.fbAddr_orByte (s : State) (i : Nat) (m : Byte) (j : Nat) :
    (s.orByte i m).fbAddr j = s.fbAddr j := rfl

theorem State.byteAt_orByte (s : State) (i : Nat) (m : Byte) (a : Nat) :
    (s.orByte i m).byteAt a = s.byteAt a ||| if a = s.fbAddr i then m else 0#8 := by
  by_cases ha : a = s.fbAddr i
  · subst ha; simp [State.orByte, State.fb]
  · simp [State.orByte, ha, s.byteAt_putByte_other _ ha]

theorem State.fb_orByte (s : State) (i : Nat) (m : Byte) (j : Nat) :
    (s.orByte i m).fb j = s.fb j ||| if j = i then m else 0#8 := by
  have ha : s.fbAddr j = s.fbAddr i ↔ j = i := Nat.add_left_cancel_iff
  simp only [State.fb, State.fbAddr_orByte, State.byteAt_orByte, ha]

theorem State.putByte_putByte_same (s : State) (a : Nat) (v w : Byte) :
    (s.putByte a v).putByte a w = s.putByte a w := by
  simp only [State.putByte, Memory.write_write_same]

theorem State.putByte_comm (s : State) {a b : Nat} (h : a ≠ b) (v w : Byte) :
    (s.putByte a v).putByte b w = (s.putByte b w).putByte a v := by
  simp only [State.putByte, Memory.write_comm s.mem v w h]

/-- Bits added twice to one byte are added at once. -/
theorem State.orByte_orByte_same (s : State) (i : Nat) (m m' : Byte) :
    (s.orByte i m).orByte i m' = s.orByte i (m ||| m') := by
  have hb : (s.orByte i m).fb i ||| m' = s.fb i ||| (m ||| m') := by
    rw [State.fb_orByte, if_pos rfl, BitVec.or_assoc]
  rw [State.orByte, hb]
  exact s.putByte_putByte_same _ _ _

/-- Bits added to two bytes are two stores of what the state before gives. -/
theorem State.orByte_orByte_other (s : State) {i j : Nat} (h : j ≠ i) (m m' : Byte) :
    (s.orByte i m).orByte j m' =
      (s.putByte (s.fbAddr i) (s.fb i ||| m)).putByte (s.fbAddr j) (s.fb j ||| m') := by
  have hb : (s.orByte i m).fb j = s.fb j := by rw [State.fb_orByte, if_neg h, BitVec.or_zero]
  rw [State.orByte, hb]
  rfl

/-- Bits are added to two bytes, or twice to one, in either order (R75). -/
theorem State.orByte_comm (s : State) (i j : Nat) (m m' : Byte) :
    (s.orByte i m).orByte j m' = (s.orByte j m').orByte i m := by
  by_cases h : i = j
  · subst h
    rw [State.orByte_orByte_same, State.orByte_orByte_same, BitVec.or_comm]
  · rw [s.orByte_orByte_other (Ne.symm h), s.orByte_orByte_other h, s.putByte_comm (s.fbAddr_ne h)]

/-! ### Reads after a store -/

theorem memRead_putByte_same {s : State} {a : Nat} (ha : s.inFramebuffer a = true) (v : Byte) :
    memRead (s.putByte a v) a = .next v := by
  rw [memRead_inside (s.putByte a v) ha, State.byteAt_putByte_same]

theorem memRead_putByte_other (s : State) {a b : Nat} (v : Byte) (h : b ≠ a) :
    memRead (s.putByte a v) b = memRead s b := by
  simp only [memRead, State.inFramebuffer_putByte, s.byteAt_putByte_other v h]

/-- Settles O21: the free port stores the OR at the codec's byte. -/
theorem setPixelOrsOneField : Obligations.SetPixelOrsOneField := fun s x y c hp =>
  have hi := s.inFramebuffer_fbAddr (codec_byteIndex_lt x y)
  ⟨rfl, rfl, _, exec_setPixel_of_free hp x y c, rfl, memRead_putByte_same hi _,
    fun _ ha => memRead_putByte_other s _ ha⟩

/-! ### Writes accumulate -/

/-- A byte is read from the memory and the place of the framebuffer alone (R53). -/
theorem State.byteAt_congr {s t : State} (hp : t.params = s.params) (hm : t.mem = s.mem) (a : Nat) :
    t.byteAt a = s.byteAt a := by
  rw [State.byteAt, hp, hm, State.byteAt]

/-- Every operation but `CLEAR_STEP` leaves a byte as it was or adds bits to it (R75). -/
theorem exec_byteAt_eq_or {i : Instr} {s t : State} (h : exec i s = .next t) (hi : i ≠ .clearStep) (a : Nat) :
    ∃ m, t.byteAt a = s.byteAt a ||| m := by
  by_cases hset : ∃ x y c, i = .setPixel x y c
  · obtain ⟨x, y, c, rfl⟩ := hset
    obtain rfl | rfl := exec_setPixel_cases h
    · exact ⟨0, by simp⟩
    · exact ⟨_, s.byteAt_orByte _ _ a⟩
  · have hne : ∀ x y c, i ≠ .setPixel x y c := fun x y c he => hset ⟨x, y, c, he⟩
    obtain ⟨hp, hm⟩ := exec_keeps_params_mem h hne hi
    exact ⟨0, by simp [State.byteAt_congr hp hm a]⟩

theorem exec_setPixel_comm (s : State) (x y x' y' : Coord) (c c' : ColourIndex) :
    andThen (exec (.setPixel x y c) s) (exec (.setPixel x' y' c')) =
      andThen (exec (.setPixel x' y' c') s) (exec (.setPixel x y c)) := by
  by_cases hp : s.clr = none
  · simp only [exec_setPixel_of_free, State.clr_orByte, hp, andThen_of_next]
    exact congrArg _ (s.orByte_comm _ _ _ _)
  · simp only [exec_of_busy (i := .setPixel _ _ _) rfl hp, andThen_of_next]

theorem exec_setPixel_idem (s : State) (x y : Coord) (c : ColourIndex) :
    andThen (exec (.setPixel x y c) s) (exec (.setPixel x y c)) = exec (.setPixel x y c) s := by
  by_cases hp : s.clr = none
  · simp only [exec_setPixel_of_free, State.clr_orByte, hp, andThen_of_next, State.orByte_orByte_same,
      BitVec.or_self]
  · simp only [exec_of_busy (i := .setPixel _ _ _) rfl hp, andThen_of_next]

/-- Settles O22: the other operations only add bits, and adding bits commutes and repeats without effect. -/
theorem pixelWritesAccumulate : Obligations.PixelWritesAccumulate := by
  refine ⟨fun i s t h hi a k hk => ?_, exec_setPixel_comm, exec_setPixel_idem⟩
  obtain ⟨m, hm⟩ := exec_byteAt_eq_or h hi a
  rw [hm, BitVec.getLsbD_or, hk, Bool.true_or]

/-! ### One field of a byte -/

/-- A colour moved to its field has no bit outside it (R84). -/
theorem getLsbD_fieldMask_outside (c : ColourIndex) {n k : Nat} (hk : k < 8)
    (h : ¬ (3 * n ≤ k ∧ k < 3 * n + 3)) : (fieldMask c n).getLsbD k = false := by
  rw [getLsbD_fieldMask c n k hk]
  by_cases hn : 3 * n ≤ k
  · rw [BitVec.getLsbD_of_ge c _ (by omega), Bool.and_false]
  · simp [hn]

theorem fieldOf_or (a b : Byte) (n : Nat) : fieldOf (a ||| b) n = fieldOf a n ||| fieldOf b n := by
  simp only [fieldOf, BitVec.ushiftRight_or_distrib, BitVec.setWidth_or]

/-- A field holds the colour moved to it (R84). -/
theorem fieldOf_fieldMask (c : ColourIndex) {n : Nat} (hn : n < 2) : fieldOf (fieldMask c n) n = c := by
  apply BitVec.eq_of_getLsbD_eq
  intro k hk
  rw [getLsbD_fieldOf _ _ _ hk, getLsbD_fieldMask c n _ (by omega)]
  simp

theorem fieldOf_toNat (b : Byte) (n : Nat) : (fieldOf b n).toNat = b.toNat / 2 ^ (3 * n) % 8 := by
  rw [fieldOf, BitVec.toNat_setWidth, BitVec.toNat_ushiftRight, Nat.shiftRight_eq_div_pow]

/-- The bits outside the field of a pixel write are as before (R83). -/
theorem exec_setPixel_getLsbD_outside {s t : State} {x y : Coord} {c : ColourIndex}
    (h : exec (.setPixel x y c) s = .next t) {j k : Nat} (hk : k < 8)
    (ho : ¬ (j = (codec x y).byteIndex ∧ 3 * (codec x y).nibble ≤ k ∧ k < 3 * (codec x y).nibble + 3)) :
    (t.fb j).getLsbD k = (s.fb j).getLsbD k := by
  obtain rfl | rfl := exec_setPixel_cases h
  · rfl
  · rw [State.fb_orByte]
    by_cases hj : j = (codec x y).byteIndex
    · have hm := getLsbD_fieldMask_outside c hk fun hin => ho ⟨hj, hin⟩
      rw [if_pos hj, BitVec.getLsbD_or, hm, Bool.or_false]
    · rw [if_neg hj, BitVec.or_zero]

/-- Settles O23: the field of another pixel is made of bits outside the written one. -/
theorem setPixelTouchesOnlyItsField : Obligations.SetPixelTouchesOnlyItsField := by
  intro s t x y c h
  refine ⟨fun j k hk => exec_setPixel_getLsbD_outside h hk, fun j n hn hne => ?_⟩
  apply BitVec.eq_of_getLsbD_eq
  intro k hk
  rw [getLsbD_fieldOf _ _ _ hk, getLsbD_fieldOf _ _ _ hk]
  refine exec_setPixel_getLsbD_outside h (by omega) fun ⟨hj, hlo, hhi⟩ => hne ?_
  rw [hj, show n = (codec x y).nibble by omega]

/-- Settles O24: the field in numbers. -/
theorem getPixelReadsField : Obligations.GetPixelReadsField :=
  fun _ x y hp => ⟨rfl, rfl, _, exec_getPixel_of_free hp x y, fieldOf_toNat _ _⟩

/-- Settles O25: the field of the byte with the colour added is the field before with the colour added. -/
theorem getPixelAfterSetPixel : Obligations.GetPixelAfterSetPixel := by
  intro s x y c hp
  have hset := exec_setPixel_of_free hp x y c
  have hfield := fieldOf_fieldMask c (codec_nibble_lt x y)
  refine ⟨_, _, exec_getPixel_of_free hp x y, hset, ?_, fun hz => ?_, ?_⟩
  · rw [exec_getPixel_of_free (s := s.orByte _ _) hp, State.fb_orByte, if_pos rfl, fieldOf_or, hfield]
  · simp [hz, fieldOf]
  · have hidem := exec_setPixel_idem s x y c
    rwa [hset] at hidem

/-! ### The progress of a clear -/

theorem exec_clearStep_of_clearing {s : State} {k : Nat} (hk : s.clr = some k) (hlt : k < Config.totalBytes) :
    exec .clearStep s = .next { s.putByte (s.fbAddr k) 0 with
      clr := if k + 1 = Config.totalBytes then none else some (k + 1) } := by
  simp only [exec, execClearStep, hk, memWrite_fbAddr s hlt, andThen_of_next]

/-- Settles O27: the byte of the clear's progress is stored and read back. -/
theorem clearStepZeroesOneByte : Obligations.ClearStepZeroesOneByte := by
  refine ⟨rfl, fun s k hk hlt => ⟨_, exec_clearStep_of_clearing hk hlt, rfl, ?_, fun a ha => ?_⟩⟩
  · exact memRead_putByte_same (s.inFramebuffer_fbAddr hlt) 0
  · exact memRead_putByte_other s 0 ha

/-- A step of a clear leaves the bytes up to its own zero, and moves on or ends (R78). -/
theorem exec_clearStep_zeroes {s t : State} {k : Nat} (hz : s.ZeroBelowClear) (hk : s.clr = some k)
    (h : exec .clearStep s = .next t) :
    (∀ j < k + 1, t.fb j = 0) ∧ t.clr = if k + 1 = Config.totalBytes then none else some (k + 1) := by
  obtain ⟨hn, -⟩ | ⟨k', hk', -, rfl⟩ := execClearStep_next h
  · rw [hk] at hn; cases hn
  · cases hk.symm.trans hk'
    refine ⟨fun j hj => (s.fb_putByte j k 0).trans ?_, rfl⟩
    split
    · rfl
    · exact hz k hk j (by omega)

/-- R79 of one step: the bytes below a clear's progress are zero after it, and where it ends the clear the whole
framebuffer is. -/
def ZeroBehind (s t : State) : Prop :=
  t.ZeroBelowClear ∧ (s.clr ≠ none → t.clr = none → ∀ i, i < Config.totalBytes → t.fb i = 0)

/-- The two states are the same in all that a clear's progress speaks of. -/
structure SameClear (s t : State) : Prop where
  params : t.params = s.params
  mem    : t.mem = s.mem
  clr    : t.clr = s.clr

theorem SameMachine.sameClear {s t : State} (h : SameMachine s t) : SameClear s t := by
  rw [h]; exact ⟨rfl, rfl, rfl⟩

theorem SameClear.zeroBelowClear {s t : State} (h : SameClear s t) (hz : s.ZeroBelowClear) :
    t.ZeroBelowClear := by
  intro k hk j hj
  have ha : t.fbAddr j = s.fbAddr j := by rw [State.fbAddr, h.params, State.fbAddr]
  rw [State.fb, ha, State.byteAt_congr h.params h.mem]
  exact hz k (h.clr ▸ hk) j hj

/-- What leaves the clear's progress as it was ends no clear. -/
theorem SameClear.zeroBehind {s t : State} (h : SameClear s t) (hz : s.ZeroBelowClear) : ZeroBehind s t :=
  ⟨h.zeroBelowClear hz, fun hne hn => absurd (h.clr ▸ hn) hne⟩

theorem exec_keeps_clr {i : Instr} {s t : State} (h : exec i s = .next t) (hc : i ≠ .clear)
    (hs : i ≠ .clearStep) : t.clr = s.clr := by
  cases i with
  | clear => exact absurd rfl hc
  | clearStep => exact absurd rfl hs
  | setPixel => obtain ⟨-, rfl⟩ | ⟨-, rfl⟩ := execSetPixel_next h <;> rfl
  | getPixel => obtain ⟨-, rfl⟩ | ⟨-, rfl⟩ := execGetPixel_next h <;> rfl
  | start => obtain ⟨-, rfl⟩ | ⟨-, -, rfl⟩ | ⟨-, -, rfl⟩ := execStart_next h <;> rfl
  | pacerReq => obtain ⟨-, rfl⟩ | ⟨-, -, rfl⟩ | ⟨-, -, rfl⟩ := execPacerReq_next h <;> rfl
  | stream => obtain ⟨-, rfl⟩ | ⟨-, -, rfl⟩ := execStream_next h <;> rfl
  | reload => obtain ⟨-, rfl⟩ | ⟨-, rfl⟩ := execReload_next h <;> rfl
  | pop => obtain ⟨-, rfl⟩ | ⟨b, rest, -, rfl⟩ := execPop_next h <;> rfl

/-- While a clear is in progress only its own steps touch the framebuffer or the progress (R79, R80). -/
theorem exec_sameClear_of_busy {i : Instr} {s t : State} (h : exec i s = .next t) (hb : s.clr ≠ none)
    (hi : i ≠ .clearStep) : SameClear s t := by
  cases hcmd : i.isCommand with
  | true =>
    cases (exec_of_busy hcmd hb).symm.trans h
    exact ⟨rfl, rfl, rfl⟩
  | false =>
    have hset : ∀ x y c, i ≠ .setPixel x y c := by rintro x y c rfl; cases hcmd
    have hclear : i ≠ .clear := by rintro rfl; cases hcmd
    obtain ⟨hp, hm⟩ := exec_keeps_params_mem h hset hi
    exact ⟨hp, hm, exec_keeps_clr h hclear hi⟩

/-- With no clear in progress an operation at most starts one (R77). -/
theorem exec_clr_of_free {i : Instr} {s t : State} (h : exec i s = .next t) (hp : s.clr = none) :
    t.clr = none ∨ t.clr = some 0 := by
  by_cases hc : i = .clear
  · subst hc
    cases (exec_clear_of_free hp).symm.trans h
    exact .inr rfl
  · by_cases hs : i = .clearStep
    · subst hs
      obtain ⟨-, rfl⟩ | ⟨k, hk, -⟩ := execClearStep_next h
      · exact .inl hp
      · cases hp.symm.trans hk
    · exact .inl ((exec_keeps_clr h hc hs).trans hp)

/-- Nothing stands below a clear that is not in progress or has just started. -/
theorem State.ZeroBelowClear.of_clr {s : State} (h : s.clr = none ∨ s.clr = some 0) : s.ZeroBelowClear := by
  intro k hk j hj
  rcases h with h | h <;> rw [h] at hk <;> cases hk
  exact absurd hj (Nat.not_lt_zero j)

/-- A step of a clear zeroes the byte at its progress before it moves on (R78). -/
theorem exec_clearStep_zeroBehind {s t : State} {k : Nat} (hz : s.ZeroBelowClear) (hk : s.clr = some k)
    (h : exec .clearStep s = .next t) : ZeroBehind s t := by
  obtain ⟨hzero, hclr⟩ := exec_clearStep_zeroes hz hk h
  by_cases hlast : k + 1 = Config.totalBytes
  · rw [if_pos hlast] at hclr
    exact ⟨.of_clr (.inl hclr), fun _ _ j hj => hzero j (hlast ▸ hj)⟩
  · rw [if_neg hlast] at hclr
    refine ⟨fun k' hk' j hj => ?_, fun _ hn => nomatch hclr.symm.trans hn⟩
    cases hclr.symm.trans hk'
    exact hzero j hj

theorem exec_zeroBehind {i : Instr} {s t : State} (hz : s.ZeroBelowClear) (h : exec i s = .next t) :
    ZeroBehind s t := by
  by_cases hb : s.clr = none
  · exact ⟨.of_clr (exec_clr_of_free h hb), fun hne => absurd hb hne⟩
  · by_cases hi : i = .clearStep
    · subst hi
      obtain ⟨k, hk⟩ := Option.ne_none_iff_exists'.mp hb
      exact exec_clearStep_zeroBehind hz hk h
    · exact (exec_sameClear_of_busy h hb hi).zeroBehind hz

/-- Settles O28: a turn and a refusal touch neither the framebuffer nor the progress, and each operation leaves
zero behind. -/
theorem clearLeavesZeroBehind : Obligations.ClearLeavesZeroBehind := by
  intro s t _ hz h
  obtain ⟨-, ⟨i, u, -, hu, he⟩ | ⟨-, hu⟩ | ⟨r, u, -, hu, rfl⟩⟩ := step_cases h
  · rw [← hu.sameClear.clr]
    exact exec_zeroBehind (hu.sameClear.zeroBelowClear hz) he
  · exact hu.sameClear.zeroBehind hz
  · exact SameClear.zeroBehind { hu.sameClear with } hz

/-! ### A whole clear -/

/-- A run of operations with one more at its end. -/
theorem execMany_concat (is : List Instr) (i : Instr) (s : State) :
    execMany (is ++ [i]) s = andThen (execMany is s) (exec i) := by
  induction is generalizing s with
  | nil => simp only [List.nil_append, execMany, andThen_of_next]; cases exec i s <;> rfl
  | cons j is ih =>
    simp only [List.cons_append, execMany]
    cases exec j s with
    | next u => exact ih u
    | fault | refused => rfl

/-- `CLEAR` and then `n` steps of it. -/
def clearRun (n : Nat) : List Instr := .clear :: List.replicate n .clearStep

theorem execMany_clearRun_succ (n : Nat) (s : State) :
    execMany (clearRun (n + 1)) s = andThen (execMany (clearRun n) s) (exec .clearStep) := by
  rw [clearRun, List.replicate_succ', ← List.cons_append, execMany_concat, clearRun]

/-- Before its end a clear has changed its own progress and bytes that are now zero, and nothing else. -/
theorem execMany_clearRun {s : State} (hp : s.clr = none) {n : Nat} (hn : n < Config.totalBytes) :
    ∃ m, execMany (clearRun n) s = .next { s with mem := m, clr := some n } ∧
      ({ s with mem := m, clr := some n } : State).ZeroBelowClear := by
  induction n with
  | zero =>
    refine ⟨s.mem, ?_, .of_clr (.inr rfl)⟩
    rw [clearRun, List.replicate_zero, execMany, exec_clear_of_free hp]
    rfl
  | succ n ih =>
    obtain ⟨m, ht, hz⟩ := ih (by omega)
    have hstep := exec_clearStep_of_clearing (s := { s with mem := m, clr := some n }) rfl (by omega)
    rw [if_neg (by omega)] at hstep
    refine ⟨Memory.write m (s.fbAddr n) 0, ?_, (exec_zeroBehind hz hstep).1⟩
    rw [execMany_clearRun_succ, ht]
    exact hstep

/-- The last step of a clear leaves every byte zero and no clear in progress. -/
theorem execMany_clearRun_totalBytes {s : State} (hp : s.clr = none) :
    ∃ m, execMany (clearRun Config.totalBytes) s = .next { s with mem := m } ∧
      ∀ i < Config.totalBytes, ({ s with mem := m } : State).fb i = 0 := by
  obtain ⟨n, hn⟩ := Nat.exists_eq_succ_of_ne_zero (show Config.totalBytes ≠ 0 by decide)
  obtain ⟨m, ht, hz⟩ := execMany_clearRun hp (n := n) (by omega)
  have hstep := exec_clearStep_of_clearing (s := { s with mem := m, clr := some n }) rfl (by omega)
  rw [if_pos (by omega)] at hstep
  refine ⟨Memory.write m (s.fbAddr n) 0, ?_, (exec_zeroBehind hz hstep).2 nofun rfl⟩
  rw [← hp] at hstep
  rw [hn, execMany_clearRun_succ, ht]
  exact hstep

/-- Settles O26: the clear's start, a clear before its end, and its end. -/
theorem clearZeroesFramebuffer : Obligations.ClearZeroesFramebuffer := by
  refine ⟨rfl, fun s hp => ⟨exec_clear_of_free hp, fun n hn => ?_, ?_⟩⟩
  · obtain ⟨m, ht, -⟩ := execMany_clearRun hp hn
    exact ⟨_, ht, rfl⟩
  · obtain ⟨m, ht, hz⟩ := execMany_clearRun_totalBytes hp
    exact ⟨_, ht, rfl, hz⟩

end Sys2Proof.Machine

/-! The transfer pipeline (41_transfer.md R85 to R100): what each of its operations answers, what any operation can
do to it, the counts every step keeps, the samples of a pass, and what the pipeline cannot tell apart. -/

namespace Sys2Proof.Machine

/-! ### What each operation answers -/

theorem exec_start_of_idle {s : State} (hc : s.clr = none) (hp : s.pstate = .armedIdle) :
    exec .start s = .next { s with pstate := .streaming } := by
  simp only [exec, execStart, s.portFree_iff.mpr hc, hp, if_true]

theorem exec_start_of_running {s : State} (hc : s.clr = none) (hp : s.pstate ≠ .armedIdle) :
    exec .start s = .next (s.refuse .startNotIdle) := by
  simp only [exec, execStart, s.portFree_iff.mpr hc, if_true, if_neg hp]

theorem exec_pacerReq_of_idle {s : State} (hp : s.pstate = .armedIdle) :
    exec .pacerReq s = .next (s.raise .frameMisalign) := by
  simp only [exec, execPacerReq, State.pacerFault, if_pos hp]

theorem exec_pacerReq_of_full {s : State} (hp : s.pstate ≠ .armedIdle) (hr : s.req = s.params.reqCreditMax) :
    exec .pacerReq s = .next (s.raise .reqOverrun) := by
  simp only [exec, execPacerReq, State.pacerFault, if_neg hp, if_pos hr]

theorem exec_pacerReq_of_room {s : State} (hp : s.pstate ≠ .armedIdle) (hr : s.req ≠ s.params.reqCreditMax) :
    exec .pacerReq s = .next { s with req := s.req + 1 } := by
  simp only [exec, execPacerReq, State.pacerFault, if_neg hp, if_neg hr]

theorem State.reloadEnabled_iff (s : State) : s.reloadEnabled = true ↔ s.pstate = .requestReset :=
  decide_eq_true_iff

theorem exec_reload_of_requestReset {s : State} (hp : s.pstate = .requestReset) : exec .reload s = .next { s with
    readAddress := s.unitB.value
    remaining := s.unitA.count
    pstate := .streaming
    passes := s.passes + 1 } :=
  if_pos (s.reloadEnabled_iff.mpr hp)

theorem exec_pop_of_nil {s : State} (hq : s.q = []) : exec .pop s = .next (s.raise .starvation) := by
  simp only [exec, execPop, hq]

theorem exec_pop_of_cons {s : State} {b : Byte} {rest : List Byte} (hq : s.q = b :: rest) :
    exec .pop s = .next { s with q := rest, out := s.out ++ samplesOf b } := by
  simp only [exec, execPop, hq]

/-- Settles O29: by the two answers of `START` at a free port. -/
theorem startEnablesOrRefuses : Obligations.StartEnablesOrRefuses :=
  ⟨rfl, fun _ hc => ⟨exec_start_of_idle hc, exec_start_of_running hc⟩⟩

/-- Settles O30: by the three answers of `PACER_REQ`. -/
theorem pacerReqCountsOrFaults : Obligations.PacerReqCountsOrFaults :=
  ⟨rfl, fun _ => ⟨exec_pacerReq_of_idle, exec_pacerReq_of_full, exec_pacerReq_of_room⟩⟩

/-- Settles O31: the conditions are those of an enabled `STREAM` whose cursor is inside the framebuffer. -/
theorem streamMovesOneByte : Obligations.StreamMovesOneByte :=
  ⟨rfl, fun s hp hr hq hi => exec_stream_of_inside (s.streamEnabled_iff.mpr ⟨hp, hr, hq⟩) hi⟩

/-- Settles O35: the answer of `RELOAD`, and the fixed fields of a configuration (R24, R25). -/
theorem reloadRewindsCursor : Obligations.ReloadRewindsCursor := by
  refine ⟨rfl, fun s hp => ⟨exec_reload_of_requestReset hp, fun hc => ?_⟩⟩
  obtain ⟨-, hA, hB⟩ := s.configOk_iff.mp hc
  rw [hA, hB]
  exact ⟨rfl, by decide⟩

/-- Settles O37: by the two answers of `POP`. -/
theorem popEmitsTwoSamples : Obligations.PopEmitsTwoSamples :=
  ⟨rfl, fun _ _ _ => exec_pop_of_cons, fun _ => exec_pop_of_nil⟩

/-! ### The samples of a byte -/

theorem samplesOf_eq_ofNat (b : Byte) :
    samplesOf b = [BitVec.ofNat 3 (b.toNat % 8), BitVec.ofNat 3 (b.toNat / 8 % 8)] := by
  have hlow : b.extractLsb' 0 3 = BitVec.ofNat 3 (b.toNat % 8) := BitVec.eq_of_toNat_eq (by simp)
  have hhigh : b.extractLsb' 3 3 = BitVec.ofNat 3 (b.toNat / 8 % 8) :=
    BitVec.eq_of_toNat_eq (by simp [Nat.shiftRight_eq_div_pow])
  rw [samplesOf, hlow, hhigh]

/-- The display ignores bits 7 and 6 of a byte (R44, R95). -/
theorem samplesOf_or_C0 (b : Byte) : samplesOf (b ||| 0xC0) = samplesOf b := by
  have hlow : (0xC0 : Byte).extractLsb' 0 3 = 0#3 := by decide
  have hhigh : (0xC0 : Byte).extractLsb' 3 3 = 0#3 := by decide
  rw [samplesOf, BitVec.extractLsb'_or, BitVec.extractLsb'_or, hlow, hhigh, BitVec.or_zero, BitVec.or_zero,
    samplesOf]

/-- Settles O38: by the samples' numbers and fields, and the lines of the eight colours. -/
theorem samplesAreTheTwoFields : Obligations.SamplesAreTheTwoFields :=
  ⟨fun b => ⟨samplesOf_eq_ofNat b, samplesOf_eq_fields b, samplesOf_or_C0 b⟩, by decide⟩

/-! ### What an operation can do to the pipeline -/

/-- The states differ at most in what is no part of the pipeline's progress: the framebuffer, the clear, the two
marks and the results. -/
def SameProgress (s t : State) : Prop :=
  t = { s with mem := t.mem, clr := t.clr, faults := t.faults, refused := t.refused, results := t.results }

/-- The pacer's request is counted (R88). -/
abbrev State.Accepts (s : State) (i : Instr) : Prop :=
  i = .pacerReq ∧ s.pstate ≠ .armedIdle ∧ s.req ≠ s.params.reqCreditMax

/-- All that an operation can do to the pipeline (R87 to R94): one of its five moves, or none. -/
inductive PipelineStep : Instr → State → State → Prop
  | keep {i : Instr} {s t : State} (same : SameProgress s t) (request : ¬ s.Accepts i)
      (transfer : ¬ (i = .stream ∧ s.streamEnabled = true)) : PipelineStep i s t
  | start {s : State} (hp : s.pstate = .armedIdle) : PipelineStep .start s { s with pstate := .streaming }
  | request {s : State} (ha : s.Accepts .pacerReq) : PipelineStep .pacerReq s { s with req := s.req + 1 }
  | transfer {s : State} (he : s.streamEnabled = true) : PipelineStep .stream s { s with
      q := s.q ++ [s.byteAt s.readAddress.toNat]
      req := s.req - 1
      readAddress := s.readAddress + 1
      remaining := s.remaining - 1
      streamed := s.streamed + 1
      pstate := if s.remaining = 1 then .requestReset else .streaming }
  | reload {s : State} (hp : s.pstate = .requestReset) : PipelineStep .reload s { s with
      readAddress := s.unitB.value
      remaining := s.unitA.count
      pstate := .streaming
      passes := s.passes + 1 }
  | pop {s : State} {b : Byte} {rest : List Byte} (hq : s.q = b :: rest) :
      PipelineStep .pop s { s with q := rest, out := s.out ++ samplesOf b }

/-- An operation that is neither a request nor a transfer and leaves the progress as it was. -/
theorem PipelineStep.of_same {i : Instr} {s t : State} (h : SameProgress s t) (hr : i ≠ .pacerReq)
    (ht : i ≠ .stream) : PipelineStep i s t :=
  .keep h (fun ha => hr ha.1) (fun ha => ht ha.1)

theorem exec_pipelineStep {i : Instr} {s t : State} (h : exec i s = .next t) : PipelineStep i s t := by
  cases i with
  | setPixel => obtain ⟨-, rfl⟩ | ⟨-, rfl⟩ := execSetPixel_next h <;> exact .of_same rfl nofun nofun
  | clear => obtain ⟨-, rfl⟩ | ⟨-, rfl⟩ := execClear_next h <;> exact .of_same rfl nofun nofun
  | getPixel => obtain ⟨-, rfl⟩ | ⟨-, rfl⟩ := execGetPixel_next h <;> exact .of_same rfl nofun nofun
  | clearStep => obtain ⟨-, rfl⟩ | ⟨k, -, -, rfl⟩ := execClearStep_next h <;> exact .of_same rfl nofun nofun
  | start =>
    obtain ⟨-, rfl⟩ | ⟨-, hp, rfl⟩ | ⟨-, -, rfl⟩ := execStart_next h
    · exact .of_same rfl nofun nofun
    · exact .start hp
    · exact .of_same rfl nofun nofun
  | pacerReq =>
    obtain ⟨hp, rfl⟩ | ⟨-, hr, rfl⟩ | ⟨hp, hr, rfl⟩ := execPacerReq_next h
    · exact .keep rfl (fun ⟨_, hp', _⟩ => hp' hp) nofun
    · exact .keep rfl (fun ⟨_, _, hr'⟩ => hr' hr) nofun
    · exact .request ⟨rfl, hp, hr⟩
  | stream =>
    obtain ⟨he, rfl⟩ | ⟨he, -, rfl⟩ := execStream_next h
    · exact .keep rfl nofun (by simp [he])
    · exact .transfer he
  | reload =>
    obtain ⟨-, rfl⟩ | ⟨hp, rfl⟩ := execReload_next h
    · exact .of_same rfl nofun nofun
    · exact .reload hp
  | pop =>
    obtain ⟨-, rfl⟩ | ⟨b, rest, hq, rfl⟩ := execPop_next h
    · exact .of_same rfl nofun nofun
    · exact .pop hq

theorem SameProgress.pstate {s t : State} (h : SameProgress s t) : t.pstate = s.pstate := by rw [h]

/-- Settles O34: of the pipeline's moves only a transfer can lead into `REQUEST_RESET`, and it does with the last
byte. -/
theorem onlyLastTransferTriggersUnitB : Obligations.OnlyLastTransferTriggersUnitB := by
  refine ⟨fun i s t h hs => ?_, State.reloadEnabled_iff⟩
  cases exec_pipelineStep h with
  | keep same _ transfer =>
    rw [same.pstate]
    exact ⟨fun hp => absurd hp hs, fun ⟨hi, he, _⟩ => absurd ⟨hi, he⟩ transfer⟩
  | start | request | pop => simp [hs]
  | transfer he =>
    have he : s.enabled .stream = true := he
    simp [he]
  | reload hp => exact absurd hp hs

/-- Settles O36: by the pipeline's moves, of which a transfer serves one pending request. -/
theorem requestsServedExactlyOnce : Obligations.RequestsServedExactlyOnce := by
  refine ⟨fun i s t h => ?_, fun s hp hr => ⟨?_, ?_, fun t h => ?_⟩⟩
  · cases exec_pipelineStep h with
    | keep same request => rw [if_neg request, same]; rfl
    | request ha => rw [if_pos ha]; dsimp only; omega
    | transfer he =>
      obtain ⟨-, hpos, -⟩ := s.streamEnabled_iff.mp he
      simp only [reduceCtorEq, false_and, if_false]
      omega
    | start | reload | pop => rfl
  · exact exec_pacerReq_of_room (by simp [hp]) hr
  · exact exec_of_disabled (i := .stream) (s.streamEnabled_eq_false_iff.mpr (.inl (by simp [hp])))
  · cases (exec_reload_of_requestReset hp).symm.trans h
    rfl

/-! ### Laws kept by every step -/

/-- What turns, refusals and operations keep is kept by every step. -/
theorem step_keeps {P : State → Prop} (hturn : ∀ {s u}, SameMachine s u → P s → P u)
    (hrefuse : ∀ {s} r, P s → P (State.refuse s r)) (hexec : ∀ {i s t}, P s → exec i s = .next t → P t)
    {s t : State} (hs : P s) (h : step s = .next t) : P t := by
  obtain ⟨-, ⟨i, u, -, hu, he⟩ | ⟨-, hu⟩ | ⟨r, u, -, hu, rfl⟩⟩ := step_cases h
  · exact hexec (hturn hu hs) he
  · exact hturn hu hs
  · exact hrefuse r (hturn hu hs)

theorem exec_keeps_running {i : Instr} {s t : State} (hs : s.pstate ≠ .armedIdle) (h : exec i s = .next t) :
    t.pstate ≠ .armedIdle := by
  cases exec_pipelineStep h with
  | keep same => rwa [same.pstate]
  | start | reload => nofun
  | request | pop => exact hs
  | transfer => dsimp only; split <;> nofun

/-- Settles O43: no move of the pipeline leads into `ARMED_IDLE`. -/
theorem pipelineNeverStops : Obligations.PipelineNeverStops := fun _ _ h hs =>
  step_keeps (P := fun s => s.pstate ≠ .armedIdle) (fun hu hs => by rw [hu]; exact hs) (fun _ hs => hs)
    exec_keeps_running hs h

/-- A transfer adds a byte to the queue, and a pop turns one into two samples (R89, R94). -/
theorem exec_keeps_sampleCountOk {i : Instr} {s t : State} (hs : s.SampleCountOk) (h : exec i s = .next t) :
    t.SampleCountOk := by
  cases exec_pipelineStep h with
  | keep same => rw [same]; exact hs
  | start | request | reload => exact hs
  | transfer =>
    simp only [State.SampleCountOk, List.length_append, List.length_singleton] at hs ⊢
    omega
  | pop hq =>
    simp only [State.SampleCountOk, hq, List.length_append, List.length_cons, samplesOf, List.length_nil] at hs ⊢
    omega

/-- Settles O41: every operation keeps the count, and a turn or a refusal touches nothing in it. -/
theorem twoSamplesPerByte : Obligations.TwoSamplesPerByte := fun _ _ =>
  step_keeps (fun hu hs => by rw [hu]; exact hs) (fun _ hs => hs) exec_keeps_sampleCountOk

/-- The count that Unit A is re-armed with is a whole pass (R24, R92). -/
theorem State.Inv.unitA_count {s : State} (h : s.Inv) : s.unitA.count = BitVec.ofNat 32 Config.totalBytes :=
  congrArg UnitAConfig.count (s.configOk_iff.mp h.config).2.1

theorem State.Inv.unitB_value {s : State} (h : s.Inv) : s.unitB.value = s.params.fbBase :=
  congrArg UnitBConfig.value (s.configOk_iff.mp h.config).2.2

theorem ofNat_totalBytes_toNat : (BitVec.ofNat 32 Config.totalBytes).toNat = Config.totalBytes := by decide

/-- An enabled transfer takes one byte off those left (R89). -/
theorem State.CursorOk.remaining_sub_one {s : State} (h : s.CursorOk) (he : s.streamEnabled = true) :
    1 ≤ s.remaining.toNat ∧ (s.remaining - 1).toNat = s.remaining.toNat - 1 := by
  obtain ⟨hp, -, -⟩ := s.streamEnabled_iff.mp he
  have h1 := h.running (by simp [hp])
  exact ⟨h1, BitVec.toNat_sub_of_le h1⟩

/-- In `REQUEST_RESET` the passes done and the one to be counted are all that was streamed (R96). -/
theorem State.PassCountOk.streamed_of_requestReset {s : State} (h : s.PassCountOk) (hs : s.Inv)
    (hp : s.pstate = .requestReset) : s.streamed = (s.passes + 1) * Config.totalBytes := by
  rw [State.PassCountOk, hs.cursor.exhausted hp] at h
  exact h

/-- A transfer moves a byte from those left to those streamed, and a reload begins a pass where none is left. -/
theorem exec_keeps_passCountOk {i : Instr} {s t : State} (hs : s.Inv) (hc : s.PassCountOk)
    (h : exec i s = .next t) : t.PassCountOk := by
  cases exec_pipelineStep h with
  | keep same => rw [same]; exact hc
  | start | request | pop => exact hc
  | transfer he =>
    obtain ⟨h1, hr⟩ := hs.cursor.remaining_sub_one he
    simp only [State.PassCountOk] at hc ⊢
    omega
  | reload hp =>
    have hst := hc.streamed_of_requestReset hs hp
    simp only [State.PassCountOk, hst, hs.unitA_count, ofNat_totalBytes_toNat]
    ring

/-- Settles O39: every operation keeps the invariant and the count; a `RELOAD` comes where no byte is left. -/
theorem passLaw : Obligations.PassLaw := by
  refine ⟨fun s t hs hc h => ?_, fun s t hs hc hp h => ?_⟩
  · exact (step_keeps (P := fun s => s.Inv ∧ s.PassCountOk)
      (fun hu ⟨hs, hc⟩ => ⟨hs.of_sameMachine hu, by rw [hu]; exact hc⟩)
      (fun r ⟨hs, hc⟩ => ⟨hs.refuse r, hc⟩)
      (fun ⟨hs, hc⟩ h => ⟨exec_keeps_inv hs h, exec_keeps_passCountOk hs hc h⟩) ⟨hs, hc⟩ h).2
  · cases (exec_reload_of_requestReset hp).symm.trans h
    exact ⟨hc.streamed_of_requestReset hs hp, hs.unitB_value, hs.unitA_count⟩

/-! ### The cursor's byte -/

/-- Outside `REQUEST_RESET` what exceeds the passes done is the cursor's offset, below a whole pass (R90, R96). -/
theorem State.PassCountOk.streamed_of_running {s : State} (h : s.PassCountOk) (hs : s.Inv)
    (hp : s.pstate ≠ .requestReset) :
    s.streamed = s.passes * Config.totalBytes + (Config.totalBytes - s.remaining.toNat) ∧
      Config.totalBytes - s.remaining.toNat < Config.totalBytes := by
  have h1 := hs.cursor.running hp
  have hb := hs.cursor.bounded
  rw [State.PassCountOk, Nat.succ_mul] at h
  omega

/-- The byte at the cursor is that of the pass's index (R29). -/
theorem State.Inv.byteAt_readAddress {s : State} (hs : s.Inv) (hp : s.pstate ≠ .requestReset) :
    s.byteAt s.readAddress.toNat = s.fb (Config.totalBytes - s.remaining.toNat) :=
  congrArg s.byteAt (hs.readAddress_of_running hp).1

/-- Settles O33: the cursor's offset is the count of the pass's bytes. -/
theorem passStreamsAscending : Obligations.PassStreamsAscending := by
  intro s t hs hc he h
  have hp : s.pstate ≠ .requestReset := by simp [(s.streamEnabled_iff.mp he).1]
  obtain ⟨hst, hlt⟩ := hc.streamed_of_running hs hp
  cases (exec_stream_of_inside he (hs.readAddress_of_running hp).2).symm.trans h
  rw [hst, Nat.add_sub_cancel_left, ← hs.byteAt_readAddress hp]
  exact ⟨rfl, hlt⟩

/-- A frame has a request for every byte of a pass (R10, R123). -/
theorem State.Inv.frameRequests_eq {s : State} (hs : s.Inv) : s.frameRequests = Config.totalBytes := by
  have hw := (s.configOk_iff.mp hs.config).1
  simp only [Params.wf, Params.countsOk, Bool.and_eq_true, decide_eq_true_eq] at hw
  exact hw.2

/-- Settles O50: passes and offset are quotient and remainder, the offset being below a whole pass. -/
theorem passNumberIsStreamedQuotient : Obligations.PassNumberIsStreamedQuotient := by
  intro s hs hc hp
  obtain ⟨hst, hlt⟩ := hc.streamed_of_running hs hp
  rw [hs.frameRequests_eq, hs.cursor.address]
  generalize Config.totalBytes - s.remaining.toNat = k at hst hlt ⊢
  have hpos : 0 < Config.totalBytes := by decide
  rw [hst, Nat.add_comm, Nat.add_mul_div_right _ _ hpos, Nat.div_eq_of_lt hlt, Nat.zero_add,
    Nat.add_mul_mod_self_right, Nat.mod_eq_of_lt hlt]
  exact ⟨rfl, rfl⟩

/-! ### The samples of a pass -/

/-- Two more pixels of the raster are the samples of one more byte (R43, R44, R95). -/
theorem rasterOf_two_mul_succ (fb : Nat → Byte) (n : Nat) :
    rasterOf fb (2 * (n + 1)) = rasterOf fb (2 * n) ++ samplesOf (fb n) := by
  have heven : 2 * n / 2 = n ∧ 2 * n % 2 = 0 := by omega
  have hodd : (2 * n + 1) / 2 = n ∧ (2 * n + 1) % 2 = 1 := by omega
  rw [Nat.mul_succ, rasterOf, List.range_succ, List.range_succ]
  simp only [List.map_append, List.map_cons, List.map_nil, heven, hodd, samplesOf_eq_fields, rasterOf,
    List.append_assoc, List.cons_append, List.nil_append]

/-- The samples emitted and those of the bytes still queued (R97). -/
def State.samples (s : State) : List ColourIndex := s.out ++ s.q.flatMap samplesOf

/-- The output law at a state within a pass that began with `before` emitted or queued (R97). -/
structure OutputLaw (before : List ColourIndex) (fb : Nat → Byte) (t : State) : Prop where
  inv     : t.Inv
  bytes   : t.fb = fb
  samples : t.samples = before ++ rasterOf fb (2 * (Config.totalBytes - t.remaining.toNat))

theorem State.fb_congr {s t : State} (hp : t.params = s.params) (hm : t.mem = s.mem) : t.fb = s.fb := by
  funext i
  rw [State.fb, State.fbAddr, hp, State.byteAt_congr hp hm, State.fb, State.fbAddr]

/-- A transfer carries the next byte's two pixels, a pop none, and no other operation moves a byte. -/
theorem exec_keeps_outputLaw {i : Instr} {before : List ColourIndex} {fb : Nat → Byte} {s t : State}
    (hset : ∀ (x y : Coord) (c : ColourIndex), i ≠ .setPixel x y c) (hclear : i ≠ .clearStep)
    (hreload : i ≠ .reload) (hs : OutputLaw before fb s) (h : exec i s = .next t) : OutputLaw before fb t := by
  obtain ⟨hp, hm⟩ := exec_keeps_params_mem h hset hclear
  refine ⟨exec_keeps_inv hs.inv h, (State.fb_congr hp hm).trans hs.bytes, ?_⟩
  have hsamples := hs.samples
  cases exec_pipelineStep h with
  | keep same => rw [same]; exact hsamples
  | start | request => exact hsamples
  | reload => exact absurd rfl hreload
  | transfer he =>
    obtain ⟨h1, hr⟩ := hs.inv.cursor.remaining_sub_one he
    have hb := hs.inv.cursor.bounded
    have hoff : Config.totalBytes - (s.remaining.toNat - 1) = Config.totalBytes - s.remaining.toNat + 1 := by
      omega
    have hbyte := hs.inv.byteAt_readAddress (by simp [(s.streamEnabled_iff.mp he).1])
    rw [hs.bytes] at hbyte
    simp only [hr, hoff, rasterOf_two_mul_succ, ← List.append_assoc, ← hsamples]
    simp only [State.samples, hbyte, List.flatMap_append, List.flatMap_singleton, List.append_assoc]
  | pop hq =>
    rw [← hsamples]
    simp only [State.samples, hq, List.flatMap_cons, List.append_assoc]

/-- What each operation of a run keeps, the run keeps. -/
theorem execMany_keeps {P : State → Prop} {is : List Instr}
    (hexec : ∀ i ∈ is, ∀ {s t}, P s → exec i s = .next t → P t) {s t : State} (hs : P s)
    (h : execMany is s = .next t) : P t := by
  induction is generalizing s with
  | nil => cases h; exact hs
  | cons i is ih =>
    obtain ⟨u, hu, h⟩ := andThen_next h
    have hmem := List.forall_mem_cons.mp hexec
    exact ih hmem.2 (hmem.1 hs hu) h

/-- Settles O40: the law holds at the pass's start, where no byte has been streamed, and every operation keeps
it. -/
theorem outputLawOfOnePass : Obligations.OutputLawOfOnePass := by
  intro is s t hs hr his h
  have hstart : OutputLaw s.samples s.fb s := ⟨hs, rfl, by simp [hr, rasterOf]⟩
  have hend : OutputLaw s.samples s.fb t := execMany_keeps
    (fun i hi {_ _} => exec_keeps_outputLaw (his i hi).1 (his i hi).2.1 (his i hi).2.2) hstart h
  have hsamples := hend.samples
  refine ⟨hsamples, fun hqs hqt hzero => ?_⟩
  have hpixels : 2 * Config.totalBytes = 307200 := by decide
  rw [hzero, Nat.sub_zero, hpixels] at hsamples
  simp only [State.samples, hqs, hqt, List.flatMap_nil, List.append_nil] at hsamples
  exact hsamples

/-! ### What the pipeline cannot tell apart -/

theorem SameButCpuPort.samePace {s s' : State} (h : SameButCpuPort s s') : SamePace s s' := by
  have hq : s'.q = s.q := by rw [h]
  have ho : s'.out = s.out := by rw [h]
  have hm : s'.mem = s.mem := by rw [h]
  refine ⟨?_, congrArg _ hq, congrArg _ ho⟩
  rw [hq, ho, hm]
  exact h

/-- No operation of the pipeline is enabled by a byte or by what the CPU port alone writes (R89, R92, R98). -/
theorem SamePace.enabled_eq {s s' : State} (h : SamePace s s') {i : Instr} (hi : isPipeline i = true) :
    s'.enabled i = s.enabled i := by
  obtain ⟨hs, hq, -⟩ := h
  cases i with
  | setPixel | clear | getPixel | start | clearStep => cases hi
  | pacerReq | pop => rfl
  | reload => rw [hs]; rfl
  | stream =>
    have hstream : s'.streamEnabled =
        decide (s.pstate = .streaming ∧ 0 < s.req ∧ s'.q.length < s.params.queueDepth) := by rw [hs]; rfl
    rwa [hq] at hstream

/-- From the second state the operation answers a next state as alike to `t` as the second is to the first. -/
def Follows (i : Instr) (s s' t : State) : Prop :=
  ∃ t', exec i s' = .next t' ∧ SamePace t t' ∧ (SameButCpuPort s s' → SameButCpuPort t t')

section
variable {s s' t : State}

/-- An operation that is not enabled answers both states as they were. -/
theorem follows_of_disabled {i : Instr} (hp : SamePace s s') (hi : isPipeline i = true)
    (hd : s.enabled i = false) : Follows i s s' s :=
  ⟨s', exec_of_disabled ((hp.enabled_eq hi).trans hd), hp, id⟩

theorem follows_of_raise {i : Instr} {k : FaultKind} (hp : SamePace s s')
    (h : exec i s' = .next (s'.raise k)) : Follows i s s' (s.raise k) := by
  obtain ⟨hs, hq, ho⟩ := hp
  exact ⟨_, h, ⟨by rw [hs]; rfl, hq, ho⟩, fun hc => by rw [hc]; exact rfl⟩

theorem exec_pacerReq_follows (hp : SamePace s s') (h : exec .pacerReq s = .next t) :
    Follows .pacerReq s s' t := by
  have ⟨hs, hq, ho⟩ := hp
  have hstate : s'.pstate = s.pstate := by rw [hs]
  have hreq : s'.req = s.req := by rw [hs]
  have hmax : s'.params.reqCreditMax = s.params.reqCreditMax := by rw [hs]
  obtain ⟨ha, rfl⟩ | ⟨ha, hr, rfl⟩ | ⟨ha, hr, rfl⟩ := execPacerReq_next h <;>
    rw [← hstate] at ha
  · exact follows_of_raise hp (exec_pacerReq_of_idle ha)
  · rw [← hreq, ← hmax] at hr
    exact follows_of_raise hp (exec_pacerReq_of_full ha hr)
  · rw [← hreq, ← hmax] at hr
    exact ⟨_, exec_pacerReq_of_room ha hr, ⟨by rw [hs], hq, ho⟩, fun hc => by rw [hc]; exact rfl⟩

/-- The byte carried may differ, not whether one is (R98). -/
theorem exec_stream_follows (hp : SamePace s s') (h : exec .stream s = .next t) : Follows .stream s s' t := by
  obtain ⟨hd, rfl⟩ | ⟨he, hi, rfl⟩ := execStream_next h
  · exact follows_of_disabled hp rfl hd
  · have he' : s'.streamEnabled = true := (hp.enabled_eq (i := .stream) rfl).trans he
    obtain ⟨hs, hq, ho⟩ := hp
    have hi' : s'.inFramebuffer s'.readAddress.toNat = true := by rw [hs]; exact hi
    exact ⟨_, exec_stream_of_inside he' hi', ⟨by rw [hs], by simp [hq], ho⟩,
      fun hc => by rw [hc]; exact rfl⟩

theorem exec_reload_follows (hp : SamePace s s') (h : exec .reload s = .next t) : Follows .reload s s' t := by
  obtain ⟨hd, rfl⟩ | ⟨hr, rfl⟩ := execReload_next h
  · exact follows_of_disabled hp rfl ((State.reloadEnabled_eq_false_iff _).mpr hd)
  · obtain ⟨hs, hq, ho⟩ := hp
    have hr' : s'.pstate = .requestReset := by rw [hs]; exact hr
    exact ⟨_, exec_reload_of_requestReset hr', ⟨by rw [hs], hq, ho⟩, fun hc => by rw [hc]; exact rfl⟩

/-- The samples may differ, not whether there are any (R98). -/
theorem exec_pop_follows (hp : SamePace s s') (h : exec .pop s = .next t) : Follows .pop s s' t := by
  have ⟨hs, hq, ho⟩ := hp
  obtain ⟨hnil, rfl⟩ | ⟨b, rest, hcons, rfl⟩ := execPop_next h
  · rw [hnil, List.length_nil, List.length_eq_zero_iff] at hq
    exact follows_of_raise hp (exec_pop_of_nil hq)
  · rw [hcons, List.length_cons] at hq
    obtain ⟨b', rest', hcons'⟩ := List.exists_cons_of_length_eq_add_one hq
    rw [hcons', List.length_cons, Nat.add_right_cancel_iff] at hq
    refine ⟨_, exec_pop_of_cons hcons', ⟨by rw [hs], hq, by simp [ho, samplesOf]⟩, fun hc => ?_⟩
    have hqq : s'.q = s.q := by rw [hc]
    rw [hcons, hcons'] at hqq
    cases hqq
    rw [hc]
    exact rfl

theorem exec_follows {i : Instr} (hi : isPipeline i = true) (hp : SamePace s s') (h : exec i s = .next t) :
    Follows i s s' t := by
  cases i with
  | setPixel | clear | getPixel | start | clearStep => cases hi
  | pacerReq => exact exec_pacerReq_follows hp h
  | stream => exact exec_stream_follows hp h
  | reload => exact exec_reload_follows hp h
  | pop => exact exec_pop_follows hp h

end

/-- Settles O42: states that differ only in what the CPU port writes are at the same pace, and each operation of
the pipeline keeps both likenesses. -/
theorem pipelineIgnoresCpuPort : Obligations.PipelineIgnoresCpuPort := by
  refine ⟨fun i s s' t hi hc h => ?_, fun i s s' t hi hp h => ?_⟩
  · obtain ⟨t', ht', -, hsame⟩ := exec_follows hi hc.samePace h
    exact ⟨(hc.samePace.enabled_eq hi).symm, t', ht', hsame hc⟩
  · obtain ⟨t', ht', hpace, -⟩ := exec_follows hi hp h
    exact ⟨(hp.enabled_eq hi).symm, t', ht', hpace⟩

end Sys2Proof.Machine

/-! The faults and the refusal mark (60_exceptions.md R101 to R110), what each agent writes (R115), events that fall
together (R109), and that no step from a state of the invariant stops (R107, R130). -/

namespace Sys2Proof.Machine

/-! ### The fault set -/

theorem FaultSet.has_add (f : FaultSet) (k k' : FaultKind) :
    (f.add k).has k' = true ↔ f.has k' = true ∨ k = k' := by
  cases k <;> cases k' <;> simp [FaultSet.add, FaultSet.has]

/-! ### What an operation does to the fault set and the refusal mark -/

/-- The fault kind an operation raises, if it raises one (R102, R103, R104, R107). -/
def State.faultOf (s : State) (i : Instr) : Option FaultKind :=
  match i with
  | .pop => if s.q = [] then some .starvation else none
  | .pacerReq => s.pacerFault
  | .setPixel _ _ _ | .clear | .getPixel _ _ | .start | .clearStep | .stream | .reload => none

theorem State.pacerFault_eq_some_iff (s : State) (k : FaultKind) : s.pacerFault = some k ↔
    (k = .frameMisalign ∧ s.pstate = .armedIdle) ∨
      (k = .reqOverrun ∧ s.pstate ≠ .armedIdle ∧ s.req = s.params.reqCreditMax) := by
  by_cases hp : s.pstate = .armedIdle
  · simp [State.pacerFault, hp, eq_comm]
  · by_cases hr : s.req = s.params.reqCreditMax <;> simp [State.pacerFault, hp, hr, eq_comm]

theorem State.faultOf_eq_some_iff (s : State) (i : Instr) (k : FaultKind) : s.faultOf i = some k ↔
    (k = .starvation ∧ i = .pop ∧ s.q = []) ∨
      (k = .frameMisalign ∧ i = .pacerReq ∧ s.pstate = .armedIdle) ∨
      (k = .reqOverrun ∧ i = .pacerReq ∧ s.pstate ≠ .armedIdle ∧ s.req = s.params.reqCreditMax) := by
  cases i with
  | pop => by_cases hq : s.q = [] <;> simp [State.faultOf, hq, eq_comm]
  | pacerReq => simp [State.faultOf, s.pacerFault_eq_some_iff]
  | setPixel | clear | getPixel | start | clearStep | stream | reload => simp [State.faultOf]

/-- All that an operation can do to the fault set and the mark: nothing, the whole of `raise`, or the whole of
`refuse` (R101, R106, R110). -/
theorem exec_mark_cases {i : Instr} {s t : State} (h : exec i s = .next t) :
    (s.faultOf i = none ∧ t.faults = s.faults ∧ t.refused = s.refused) ∨
    (∃ k, s.faultOf i = some k ∧ t = s.raise k) ∨
    (s.faultOf i = none ∧ ∃ r, t = s.refuse r) := by
  cases i with
  | setPixel => obtain ⟨-, rfl⟩ | ⟨-, rfl⟩ := execSetPixel_next h <;> exact .inl ⟨rfl, rfl, rfl⟩
  | clear => obtain ⟨-, rfl⟩ | ⟨-, rfl⟩ := execClear_next h <;> exact .inl ⟨rfl, rfl, rfl⟩
  | getPixel => obtain ⟨-, rfl⟩ | ⟨-, rfl⟩ := execGetPixel_next h <;> exact .inl ⟨rfl, rfl, rfl⟩
  | clearStep => obtain ⟨-, rfl⟩ | ⟨k, -, -, rfl⟩ := execClearStep_next h <;> exact .inl ⟨rfl, rfl, rfl⟩
  | stream => obtain ⟨-, rfl⟩ | ⟨-, -, rfl⟩ := execStream_next h <;> exact .inl ⟨rfl, rfl, rfl⟩
  | reload => obtain ⟨-, rfl⟩ | ⟨-, rfl⟩ := execReload_next h <;> exact .inl ⟨rfl, rfl, rfl⟩
  | start =>
    obtain ⟨-, rfl⟩ | ⟨-, -, rfl⟩ | ⟨-, -, rfl⟩ := execStart_next h
    · exact .inl ⟨rfl, rfl, rfl⟩
    · exact .inl ⟨rfl, rfl, rfl⟩
    · exact .inr (.inr ⟨rfl, _, rfl⟩)
  | pacerReq =>
    obtain ⟨hp, rfl⟩ | ⟨hp, hr, rfl⟩ | ⟨hp, hr, rfl⟩ := execPacerReq_next h
    · exact .inr (.inl ⟨_, if_pos hp, rfl⟩)
    · exact .inr (.inl ⟨_, (if_neg hp).trans (if_pos hr), rfl⟩)
    · exact .inl ⟨(if_neg hp).trans (if_neg hr), rfl, rfl⟩
  | pop =>
    obtain ⟨hq, rfl⟩ | ⟨b, rest, hq, rfl⟩ := execPop_next h
    · exact .inr (.inl ⟨_, if_pos hq, rfl⟩)
    · exact .inl ⟨if_neg (by simp [hq]), rfl, rfl⟩

/-- A fault is recorded exactly where one is raised or recorded already (R101). -/
theorem exec_has_fault_iff {i : Instr} {s t : State} (h : exec i s = .next t) (k : FaultKind) :
    t.faults.has k = true ↔ s.faults.has k = true ∨ s.faultOf i = some k := by
  obtain ⟨hn, hf, -⟩ | ⟨k', hk', rfl⟩ | ⟨hn, r, rfl⟩ := exec_mark_cases h
  · simp [hf, hn]
  · simp [hk', FaultSet.has_add]
  · simp [hn]

theorem exec_keeps_refused {i : Instr} {s t : State} (hs : s.refused = true) (h : exec i s = .next t) :
    t.refused = true := by
  obtain ⟨-, -, hr⟩ | ⟨k, -, rfl⟩ | ⟨-, r, rfl⟩ := exec_mark_cases h
  · exact hr.trans hs
  · exact hs
  · rfl

/-- Settles O44: every operation keeps a recorded kind and a set mark, and so do a turn and a refusal. -/
theorem faultsAndMarkAreSticky : Obligations.FaultsAndMarkAreSticky := by
  refine fun s t h => ⟨fun k hk => ?_, fun hr => ?_⟩
  · exact step_keeps (P := fun s => s.faults.has k = true) (fun hu hs => by rw [hu]; exact hs) (fun _ hs => hs)
      (fun hs he => (exec_has_fault_iff he k).mpr (.inl hs)) hk h
  · exact step_keeps (P := fun s => s.refused = true) (fun hu hs => by rw [hu]; exact hs) (fun _ _ => rfl)
      exec_keeps_refused hr h

/-- Settles O45: a kind not recorded before is recorded exactly where the operation raises it. -/
theorem faultsRaisedOnlyWhereStated : Obligations.FaultsRaisedOnlyWhereStated := by
  intro i s t k h hk
  rw [exec_has_fault_iff h, hk, ← s.faultOf_eq_some_iff]
  simp

/-- Settles O46: only the whole of `raise` changes the fault set, and only the whole of `refuse` the mark. -/
theorem raisingStepHasNoOtherEffect : Obligations.RaisingStepHasNoOtherEffect := by
  intro i s t h
  obtain ⟨-, hf, hr⟩ | ⟨k, -, rfl⟩ | ⟨-, r, rfl⟩ := exec_mark_cases h
  · exact ⟨fun hne => absurd hf hne, fun hne => absurd hr hne⟩
  · exact ⟨fun _ => rfl, fun hne => absurd rfl hne⟩
  · exact ⟨fun hne => absurd rfl hne, fun _ => rfl⟩

/-! ### What each agent writes -/

/-- Settles O47: by what each operation can answer, and what a store leaves as it reads. -/
theorem agentsWriteOnlyTheirState : Obligations.AgentsWriteOnlyTheirState := by
  intro i s t h
  cases i with
  | setPixel =>
    obtain ⟨-, rfl⟩ | ⟨-, rfl⟩ := execSetPixel_next h
    · exact ⟨rfl, fun _ _ => rfl⟩
    · exact ⟨rfl, fun a ha => memRead_putByte_other s _ ha⟩
  | clearStep =>
    obtain ⟨-, rfl⟩ | ⟨k, hk, -, rfl⟩ := execClearStep_next h
    · exact ⟨rfl, fun _ _ => rfl⟩
    · exact ⟨rfl, fun a ha => memRead_putByte_other s 0 (ha k hk)⟩
  | clear => obtain ⟨-, rfl⟩ | ⟨-, rfl⟩ := execClear_next h <;> exact rfl
  | getPixel => obtain ⟨-, rfl⟩ | ⟨-, rfl⟩ := execGetPixel_next h <;> exact rfl
  | start => obtain ⟨-, rfl⟩ | ⟨-, -, rfl⟩ | ⟨-, -, rfl⟩ := execStart_next h <;> exact rfl
  | pacerReq => obtain ⟨-, rfl⟩ | ⟨-, -, rfl⟩ | ⟨-, -, rfl⟩ := execPacerReq_next h <;> exact rfl
  | stream => obtain ⟨-, rfl⟩ | ⟨-, -, rfl⟩ := execStream_next h <;> exact rfl
  | reload => obtain ⟨-, rfl⟩ | ⟨-, rfl⟩ := execReload_next h <;> exact rfl
  | pop => obtain ⟨-, rfl⟩ | ⟨b, rest, -, rfl⟩ := execPop_next h <;> exact rfl

/-! ### Events that fall together -/

/-- The state with one byte moved from the cursor to the queue, what a transfer does (R89). -/
def State.transferred (s : State) : State := { s with
  q := s.q ++ [s.byteAt s.readAddress.toNat]
  req := s.req - 1
  readAddress := s.readAddress + 1
  remaining := s.remaining - 1
  streamed := s.streamed + 1
  pstate := if s.remaining = 1 then .requestReset else .streaming }

/-- In a state of the invariant the cursor of an enabled Unit A is at a framebuffer byte (R29). -/
theorem State.Inv.readAddress_of_streamEnabled {s : State} (hs : s.Inv) (he : s.streamEnabled = true) :
    s.readAddress.toNat = s.fbAddr (Config.totalBytes - s.remaining.toNat) ∧
      s.inFramebuffer s.readAddress.toNat = true :=
  hs.readAddress_of_running (by simp [(s.streamEnabled_iff.mp he).1])

theorem State.Inv.exec_stream {s : State} (hs : s.Inv) (he : s.streamEnabled = true) :
    exec .stream s = .next s.transferred :=
  exec_stream_of_inside he (hs.readAddress_of_streamEnabled he).2

/-- An operation commutes with a transfer where it leaves Unit A enabled and does after the transfer what it does
before it. -/
theorem exec_comm_stream {i : Instr} {s u : State} (hs : s.Inv) (he : s.streamEnabled = true)
    (hi : exec i s = .next u) (hu : u.streamEnabled = true)
    (hlate : exec i s.transferred = .next u.transferred) :
    andThen (exec i s) (exec .stream) = andThen (exec .stream s) (exec i) := by
  rw [hi, andThen_of_next, (exec_keeps_inv hs hi).exec_stream hu, hs.exec_stream he, andThen_of_next, hlate]

/-- Below the bound a request adds one and a transfer takes one away, in either order (R88, R89). -/
theorem exec_pacerReq_comm_stream {s : State} (hs : s.Inv) (he : s.streamEnabled = true)
    (hr : s.req ≠ s.params.reqCreditMax) :
    andThen (exec .pacerReq s) (exec .stream) = andThen (exec .stream s) (exec .pacerReq) := by
  obtain ⟨hp, hpos, hroom⟩ := s.streamEnabled_iff.mp he
  have hlt : s.req - 1 < s.params.reqCreditMax := by have := hs.requests; omega
  have hp' : s.transferred.pstate ≠ .armedIdle := by dsimp only [State.transferred]; split <;> nofun
  have hreq : s.req - 1 + 1 = s.req + 1 - 1 := by omega
  refine exec_comm_stream hs he (exec_pacerReq_of_room (by simp [hp]) hr)
    ((State.streamEnabled_iff _).mpr ⟨hp, Nat.succ_pos _, hroom⟩) ?_
  rw [exec_pacerReq_of_room hp' hlt.ne]
  simp only [State.transferred, hreq]
  rfl

/-- A pop takes the oldest byte of a queue that is not empty, and a transfer adds the newest (R89, R94). -/
theorem exec_pop_comm_stream {s : State} (hs : s.Inv) (he : s.streamEnabled = true) (hq : s.q ≠ []) :
    andThen (exec .pop s) (exec .stream) = andThen (exec .stream s) (exec .pop) := by
  obtain ⟨b, rest, hq⟩ := List.exists_cons_of_ne_nil hq
  obtain ⟨hp, hpos, hroom⟩ := s.streamEnabled_iff.mp he
  have hrest : rest.length < s.params.queueDepth := by
    rw [hq, List.length_cons] at hroom
    exact Nat.lt_of_succ_lt hroom
  have hq' : s.transferred.q = b :: (rest ++ [s.byteAt s.readAddress.toNat]) := by
    rw [← List.cons_append, ← hq, State.transferred]
  exact exec_comm_stream hs he (exec_pop_of_cons hq)
    ((State.streamEnabled_iff _).mpr ⟨hp, hpos, hrest⟩) (exec_pop_of_cons hq')

/-- A clear step that zeroes another byte leaves the one streamed (R78, R89). -/
theorem exec_clearStep_comm_stream {s : State} (hs : s.Inv) (he : s.streamEnabled = true)
    (hk : s.clr ≠ some (Config.totalBytes - s.remaining.toNat)) :
    andThen (exec .clearStep s) (exec .stream) = andThen (exec .stream s) (exec .clearStep) := by
  cases hc : s.clr with
  | none =>
    have hhold : ∀ u : State, u.clr = none → exec .clearStep u = .next u :=
      fun u hu => exec_of_disabled (by simp [State.enabled, hu])
    exact exec_comm_stream hs he (hhold s hc) he (hhold s.transferred hc)
  | some k =>
    have hlt := hs.clearing k hc
    have hne : s.readAddress.toNat ≠ s.fbAddr k := by
      rw [(hs.readAddress_of_streamEnabled he).1]
      exact s.fbAddr_ne fun h => hk (h ▸ hc)
    refine exec_comm_stream hs he (exec_clearStep_of_clearing hc hlt) he ?_
    rw [exec_clearStep_of_clearing (s := s.transferred) hc hlt, State.transferred, State.transferred,
      ← s.byteAt_putByte_other 0 hne]
    rfl

/-- Settles O51: each of the three events with a transfer. -/
theorem simultaneousEventsCommute : Obligations.SimultaneousEventsCommute :=
  fun _ hs he => ⟨exec_pacerReq_comm_stream hs he, exec_pop_comm_stream hs he, exec_clearStep_comm_stream hs he⟩

/-! ### No step stops -/

/-- From a state of the invariant every operation answers: where it is enabled it accesses only the framebuffer. -/
theorem State.Inv.exec_answers {s : State} (hs : s.Inv) (i : Instr) : ∃ t, exec i s = .next t := by
  cases he : s.enabled i with
  | false => exact ⟨s, exec_of_disabled he⟩
  | true =>
    cases i with
    | setPixel x y c => exact ⟨_, exec_setPixel_of_free (s.portFree_iff.mp he) x y c⟩
    | clear => exact ⟨_, exec_clear_of_free (s.portFree_iff.mp he)⟩
    | getPixel x y => exact ⟨_, exec_getPixel_of_free (s.portFree_iff.mp he) x y⟩
    | start =>
      by_cases hp : s.pstate = .armedIdle
      · exact ⟨_, exec_start_of_idle (s.portFree_iff.mp he) hp⟩
      · exact ⟨_, exec_start_of_running (s.portFree_iff.mp he) hp⟩
    | clearStep =>
      obtain ⟨k, hk⟩ := Option.isSome_iff_exists.mp he
      exact ⟨_, exec_clearStep_of_clearing hk (hs.clearing k hk)⟩
    | pacerReq =>
      cases hf : s.pacerFault with
      | none => exact ⟨{ s with req := s.req + 1 }, by simp only [exec, execPacerReq, hf]⟩
      | some k => exact ⟨s.raise k, by simp only [exec, execPacerReq, hf]⟩
    | stream => exact ⟨_, hs.exec_stream he⟩
    | reload => exact ⟨_, exec_reload_of_requestReset (s.reloadEnabled_iff.mp he)⟩
    | pop =>
      cases hq : s.q with
      | nil => exact ⟨_, exec_pop_of_nil hq⟩
      | cons b rest => exact ⟨_, exec_pop_of_cons hq⟩

/-- Settles O54: a configuration is not refused, and a turn comes to an answer in each of its three cases. -/
theorem stepAlwaysAnswers : Obligations.StepAlwaysAnswers := by
  intro s hs
  cases hf : fetch s with
  | run i u =>
    have hu : u.Inv := hs.of_sameMachine (fetch_sameMachine (.inl ⟨i, hf⟩))
    rw [step_of_run hs.config hf]
    exact hu.exec_answers i
  | hold u => exact ⟨_, step_of_hold hs.config hf⟩
  | refuse r u => exact ⟨_, step_of_refuse hs.config hf⟩

end Sys2Proof.Machine

/-! Reset and hazards (70_reset_and_hazards.md R119 to R126): the state after reset, the configurations that are
refused, the premises under which no fault is recorded, and a run under them, whose passes are the video's frames. -/

namespace Sys2Proof.Machine

/-! ### Reset and configuration -/

/-- Settles O1: the fields of the reset state, their fixed values written out. -/
theorem resetStateValues : Obligations.ResetStateValues :=
  fun _ => ⟨rfl, rfl, rfl, rfl, rfl, rfl, rfl, rfl, rfl, rfl, rfl, rfl, rfl⟩

theorem step_of_not_configOk {s : State} (hc : ¬ s.configOk = true) : step s = .refused .invalidConfiguration :=
  if_neg hc

/-- A frame has a request for every byte of a pass (R10, R123). -/
theorem Params.hPairs_mul_vActiveLines {p : Params} (h : p.wf = true) :
    p.hPairs * p.vActiveLines = Config.totalBytes :=
  (State.resetWith_inv h).frameRequests_eq

/-- Settles O4: a configuration has none of the four defects. -/
theorem badConfigurationRefused : Obligations.BadConfigurationRefused := by
  refine fun s hbad => step_of_not_configOk fun hc => ?_
  obtain ⟨hw, hA, hB⟩ := s.configOk_iff.mp hc
  obtain hcount | hA' | hB' | hwidth := hbad
  · exact hcount (Params.hPairs_mul_vActiveLines hw)
  · exact hA' (hA ▸ rfl)
  · exact hB' (hB ▸ rfl)
  · exact absurd hwidth (by decide)

/-! ### The premises of one step -/

/-- The premises exclude each of the conditions under which a fault is raised (R102, R103, R104). -/
theorem State.faultOf_eq_none {s : State} {i : Instr} (hq : s.NoStarvation i) (hr : s.NoOverrun i)
    (hp : s.BootOrder i) : s.faultOf i = none := by
  rw [Option.eq_none_iff_forall_ne_some]
  intro k hk
  obtain ⟨-, hi, he⟩ | ⟨-, hi, he⟩ | ⟨-, hi, -, he⟩ := (s.faultOf_eq_some_iff i k).mp hk
  · exact hq hi he
  · exact hp hi he
  · exact hr hi he

/-- Settles O49: an operation that raises no fault leaves the fault set as it was. -/
theorem premisesExcludeFaults : Obligations.PremisesExcludeFaults := by
  intro i s t h hs hq hr hp
  have hn := State.faultOf_eq_none hq hr hp
  obtain ⟨-, hf, -⟩ | ⟨k, hk, -⟩ | ⟨-, r, rfl⟩ := exec_mark_cases h
  · exact hf.trans hs
  · exact nomatch hn.symm.trans hk
  · exact hs

/-! ### What holds at the end of a run -/

/-- What every step keeps holds at the end of a run. -/
theorem runFor_keeps {P : State → Prop} (hstep : ∀ {s t}, P s → step s = .next t → P t) {n : Nat} {s t : State}
    (hs : P s) (h : runFor n s = .next t) : P t := by
  induction n generalizing s with
  | zero => cases h; exact hs
  | succ n ih =>
    obtain ⟨u, hu, h⟩ := andThen_next h
    exact ih (hstep hs hu) h

/-- No operation writes the parameters (R9). -/
theorem exec_keeps_params {i : Instr} {s t : State} (h : exec i s = .next t) : t.params = s.params := by
  have hw := agentsWriteOnlyTheirState i s t h
  cases i with
  | setPixel | clearStep => rw [hw.1]
  | clear | getPixel | start | stream | reload | pacerReq | pop => rw [hw]

theorem step_keeps_params {s t : State} (h : step s = .next t) : t.params = s.params :=
  step_keeps (P := fun u => u.params = s.params) (fun hu hs => by rw [hu]; exact hs) (fun _ hs => hs)
    (fun hs he => (exec_keeps_params he).trans hs) rfl h

/-- Reset has a whole pass before it and none done. -/
theorem State.resetWith_passCountOk (p : Params) : (State.resetWith p).PassCountOk := by
  rw [State.PassCountOk, State.resetWith_streamed, State.resetWith_remaining, State.resetWith_passes,
    ofNat_totalBytes_toNat, Nat.zero_add, Nat.zero_add, Nat.one_mul]

/-! ### Counting the operations of a run -/

theorem everyTaken_and {P Q : State → Instr → Prop} {n : Nat} {s : State} (hP : EveryTaken P n s)
    (hQ : EveryTaken Q n s) : EveryTaken (fun s i => P s i ∧ Q s i) n s := by
  induction n generalizing s with
  | zero => trivial
  | succ n ih => exact ⟨fun i hi => ⟨hP.1 i hi, hQ.1 i hi⟩, fun t ht => ih (hP.2 t ht) (hQ.2 t ht)⟩

/-- The number `f` goes up by one with each `i` that is taken where `P` holds, and with nothing else. -/
structure Counts (i : Instr) (P : State → Instr → Prop) (f : State → Int) : Prop where
  turn      : ∀ {s u}, SameMachine s u → f u = f s
  premise   : ∀ {s u j}, SameMachine s u → P s j → P u j
  refuse    : ∀ s r, f (State.refuse s r) = f s
  operation : ∀ {s t j}, P s j → exec j s = .next t → f t = f s + if j = i then 1 else 0

theorem Counts.of_step {i : Instr} {P : State → Instr → Prop} {f : State → Int} (hf : Counts i P f) {s t : State}
    (hP : ∀ j, s.taken = some (.operation j) → P s j) (h : step s = .next t) :
    f t = f s + if s.taken = some (.operation i) then 1 else 0 := by
  have hturn : ∀ rest, SameMachine s { s.turnTaken with program := rest } := fun rest => by
    rw [SameMachine, s.turnTaken_sameMachine]
  obtain ⟨ht, rfl⟩ | ⟨j, rest, ht, -, -, hx, -⟩ | ⟨w, rest, ht, -, -, -, -, rfl⟩ := step_taken_cases h
  · simp [ht, hf.turn s.turnTaken_sameMachine]
  · rw [hf.operation (hf.premise (hturn rest) (hP j ht)) hx, hf.turn (hturn rest)]
    simp [ht]
  · refine (hf.refuse _ .reservedEncoding).trans ((hf.turn (hturn rest)).trans ?_)
    simp [ht]

theorem Counts.of_runFor {i : Instr} {P : State → Instr → Prop} {f : State → Int} (hf : Counts i P f) {n : Nat}
    {s t : State} (hP : EveryTaken P n s) (h : runFor n s = .next t) : f t = f s + timesTaken i n s := by
  induction n generalizing s with
  | zero => cases h; simp [timesTaken, takenOf]
  | succ n ih =>
    obtain ⟨u, hu, h⟩ := andThen_next h
    obtain ⟨hs, hrest⟩ := (everyTaken_succ n hu).mp hP
    rw [ih hrest h, hf.of_step hs hu, timesTaken_succ i n hu]
    push_cast
    ring

/-- Where none is dropped or comes early, the requests issued are those served and those pending (R93). -/
theorem counts_pacerReq : Counts .pacerReq (fun s i => s.NoOverrun i ∧ s.BootOrder i)
    (fun s => s.streamed + s.req) where
  turn hu := by rw [hu]
  premise hu hP := by rw [hu]; exact hP
  refuse _ _ := rfl
  operation {s t j} hP h := by
    have hserved := requestsServedExactlyOnce.1 j s t h
    by_cases hj : j = .pacerReq
    · rw [if_pos ⟨hj, hP.2 hj, hP.1 hj⟩] at hserved
      rw [if_pos hj]
      omega
    · rw [if_neg fun ha => hj ha.1] at hserved
      rw [if_neg hj]
      omega

/-- Where none starves, the pops are the bytes streamed and no longer queued (R94). -/
theorem counts_pop : Counts .pop State.NoStarvation (fun s => s.streamed - s.q.length) where
  turn hu := by rw [hu]
  premise hu hP := by rw [hu]; exact hP
  refuse _ _ := rfl
  operation {s t j} hP h := by
    by_cases hj : j = .pop
    · subst hj
      obtain ⟨hq, -⟩ | ⟨b, rest, hq, rfl⟩ := execPop_next h
      · exact absurd hq (hP rfl)
      · simp only [hq, List.length_cons, if_true]
        omega
    · cases exec_pipelineStep h with
      | keep same => rw [same]; simp [hj]
      | start | request | reload => simp
      | transfer =>
        simp only [List.length_append, List.length_singleton, if_neg hj]
        omega
      | pop => exact absurd rfl hj

/-! ### Passes and video frames -/

/-- Outside `REQUEST_RESET` the request served next is of the frame with this pass's number, and of the index that
the cursor is at (R122). -/
theorem State.PassCountOk.pacer_of_running {s : State} {pacer : Nat → FrameRequest} (hc : s.PassCountOk)
    (hs : s.Inv) (ha : FrameAligned Config.totalBytes pacer) (hp : s.pstate ≠ .requestReset) :
    (pacer s.streamed).frame = s.passes ∧
      (pacer s.streamed).index = s.streamed - s.passes * Config.totalBytes ∧
      s.readAddress = s.params.fbBase + BitVec.ofNat 32 (pacer s.streamed).index := by
  have hq := passNumberIsStreamedQuotient s hs hc hp
  rw [hs.frameRequests_eq] at hq
  rw [ha.eq_div_mod (by decide)]
  refine ⟨hq.1, ?_, hq.2⟩
  rw [← hq.1, Nat.mod_eq_sub_div_mul]

/-- In `REQUEST_RESET` the request served next is the first of the next frame (R122). -/
theorem State.PassCountOk.pacer_of_requestReset {s : State} {pacer : Nat → FrameRequest} (hc : s.PassCountOk)
    (hs : s.Inv) (ha : FrameAligned Config.totalBytes pacer) (hp : s.pstate = .requestReset) :
    pacer s.streamed = ⟨s.passes + 1, 0⟩ := by
  have hpos : 0 < Config.totalBytes := by decide
  rw [ha.eq_div_mod hpos, hc.streamed_of_requestReset hs hp, Nat.mul_div_cancel _ hpos, Nat.mul_mod_left]

/-- Settles O56: the requests and pops are counted along the run, and the invariant and the pass law at its end
place the request served next. -/
theorem passIsVideoFrame : Obligations.PassIsVideoFrame := by
  intro p program schedule pacer n t s hwf ha hstarve hover hboot h
  have hs : s.Inv := (State.resetWith_inv hwf).of_sameMachine rfl
  obtain ⟨ht, hc, hparams⟩ := runFor_keeps (P := fun u => u.Inv ∧ u.PassCountOk ∧ u.params = p)
    (fun ⟨hu, hc, hp⟩ h => ⟨stepKeepsInvariant _ _ hu h, passLaw.1 _ _ hu hc h, (step_keeps_params h).trans hp⟩)
    ⟨hs, State.resetWith_passCountOk p, rfl⟩ h
  have hreq := counts_pacerReq.of_runFor (everyTaken_and hover hboot) h
  have hpop := counts_pop.of_runFor hstarve h
  have hzero : s.streamed = 0 ∧ s.req = 0 ∧ s.q.length = 0 := ⟨rfl, rfl, rfl⟩
  rw [hs.frameRequests_eq] at ha
  refine ⟨by omega, by omega, fun hp => ?_, hc.pacer_of_requestReset ht ha, fun u he hx => ?_⟩
  · obtain ⟨hframe, -, haddr⟩ := hc.pacer_of_running ht ha hp
    exact ⟨hframe, hparams ▸ haddr⟩
  · have hp : t.pstate ≠ .requestReset := by simp [(t.streamEnabled_iff.mp he).1]
    obtain ⟨-, hindex, -⟩ := hc.pacer_of_running ht ha hp
    rw [hindex]
    exact (passStreamsAscending t u ht hc he hx).1

end Sys2Proof.Machine
